-- ==== Sys2Proof/Word.lean ====
section
/-! DEFINITION. The two word types of the block: bytes and 32-bit words (00_scope.md R9). -/

namespace Sys2Proof

/-- `u8` of 00_scope.md R9: a RAM byte. -/
abbrev Byte := BitVec 8

/-- `u32` of 00_scope.md R9: a register, a bus value, a colour word, a command word. -/
abbrev Word := BitVec 32

end Sys2Proof
end

