-- ==== Sys2Proof/Config.lean ====
section
/-! DEFINITION. The fixed parameters of 00_scope.md R6, the address map of 20_memory.md R51, and the free values: the
OPEN palette (R7) and the unspecified bytes of R60, R222 and R223. -/

namespace Sys2Proof.Config

/-! ### Fixed parameters (00_scope.md R6) -/

/-- BANK_BYTES. -/
abbrev bankBytes : Nat := 8192
/-- BANKS_ACCEPTED. -/
abbrev banksAccepted : Nat := 1
/-- TILE_BYTES. -/
abbrev tileBytes : Nat := 16
/-- PLANE_BYTES. -/
abbrev planeBytes : Nat := 8
/-- TILE_PX. -/
abbrev tilePx : Nat := 8
/-- HDR_BYTES. -/
abbrev hdrBytes : Nat := 54
/-- TILE_RAM_BYTES. -/
abbrev tileRamBytes : Nat := 8192
/-- FB_WORDS. -/
abbrev fbWords : Nat := 16384

/-! ### Address map (20_memory.md R51) -/

/-- Size in bytes of the REG window, which starts at address 0. -/
abbrev regWindowBytes : Nat := 0x20
/-- TILE_BASE. -/
abbrev tileBase : Nat := 0x2000
/-- FB_BASE. -/
abbrev fbBase : Nat := 0x10000
/-- Size in bytes of the FB window: four bytes a word. -/
abbrev fbWindowBytes : Nat := 0x10000
/-- OUT_BASE. -/
abbrev outBase : Nat := 0x20000
/-- Size in bytes of the OUT window, and the greatest OUT_CAP (00_scope.md R8). -/
abbrev outWindowBytes : Nat := 131072

/-! ### Free values -/

/-- Free bytes: byte `i` of draw number `n`. A RAM's bytes that nothing has written since its contents became
unspecified are one draw (70_reset_and_hazards.md R222, R223: "a draw taken once"), and every read that R60 leaves
unspecified is a draw of its own. No body: no proof can use a value of it (logs 6, 8, 9). -/
opaque freeByte (n i : Nat) : Byte

/-- The OPEN colours (00_scope.md R7): the colour of intensity `i` is the 24-bit number this permutation sends `i` to.
Four pairwise distinct 24-bit colours are exactly what the first four values of a permutation can be, so R7's property
(a) holds of every instance and no legal palette is left out. No body (log 5). -/
opaque colourOrder : Equiv.Perm (BitVec 24)

/-- PALETTE (10_state.md R35): a 24-bit colour in a 32-bit slot whose top byte is 0 (00_scope.md R7(b)). -/
def palette (i : BitVec 2) : Word := (colourOrder (i.setWidth 24)).setWidth 32

end Sys2Proof.Config
end

