-- ==== Sys2Proof/Syntax.lean ====
section
/-! DEFINITION. The commands: one constructor per row of spec/opcode_table.json. -/

namespace Sys2Proof

/-- The legal commands (30_encoding.md R81). No command has an operand field or an immediate (R82): every operand is
implicit, so no constructor takes an argument. -/
inductive Instr where
  /-- NOP, 0x00000000 (42_sequencer.md R173). -/
  | nop
  /-- DECODE, 0x00000001 (40_decode.md R114). -/
  | decode
  /-- WRITE, 0x00000002 (41_write.md R149). -/
  | write
  /-- EXTRACT, 0x00000003 (42_sequencer.md R174). -/
  | extract
  deriving DecidableEq, Repr

end Sys2Proof
end

