-- ==== Sys2Proof/WellFormed.lean ====
section
/-! DEFINITION. Well-formed command words (30_encoding.md R80, R83) and well-formed commands (R82). -/

namespace Sys2Proof

/-- RSV, bits 31:4 of a command word, must be 0 (30_encoding.md R80). -/
def CommandWord.reservedZero (w : Word) : Bool := w.toNat / 16 == 0

/-- OP, bits 3:0 of a command word, is one of the four operation codes in use (30_encoding.md R81, R83). -/
def CommandWord.opInUse (w : Word) : Bool := decide (w.toNat % 16 < 4)

/-- A legal command word (30_encoding.md R83: every other word is illegal). -/
def CommandWord.wf (w : Word) : Bool := CommandWord.reservedZero w && CommandWord.opInUse w

/-- A command has no operand to check (30_encoding.md R82), so each of the four is well formed. -/
def Instr.wf : Instr → Bool
  | .nop => true
  | .decode => true
  | .write => true
  | .extract => true

end Sys2Proof
end

