-- ==== Sys2Proof/Decode.lean ====
section
/-! DEFINITION. The command decoder of 30_encoding.md R81, total on every word and on every list of bytes and
rejecting by name, and the encoder written from the same table. -/

namespace Sys2Proof

/-- Why the decoder rejects (30_encoding.md R83; both kinds of illegal word complete with code 6, R176). -/
inductive DecodeReject where
  /-- Fewer than the four bytes of a command word (R80: every command is 32 bits). -/
  | truncated
  /-- RSV, bits 31:4, is not 0. -/
  | reservedBits
  /-- RSV is 0 and OP is 0x4 to 0xF. -/
  | undefinedOp
  deriving DecidableEq, Repr

/-- OP: bits 3:0 of a command word (30_encoding.md R80). -/
def opField (w : Word) : BitVec 4 := w.extractLsb' 0 4

/-- RSV: bits 31:4 of a command word (30_encoding.md R80). -/
def rsvField (w : Word) : BitVec 28 := w.extractLsb' 4 28

/-- `decodeCmd` of 30_encoding.md R81; a rejection is its ILLEGAL. -/
def decodeCmd (w : Word) : Except DecodeReject Instr :=
  if rsvField w ≠ 0 then .error .reservedBits
  else
    match (opField w).toNat with
    | 0 => .ok .nop
    | 1 => .ok .decode
    | 2 => .ok .write
    | 3 => .ok .extract
    | _ => .error .undefinedOp

/-- The command word that four bytes in bus order make: the lowest address holds bits 7:0 (20_memory.md R53). -/
def commandOfBytes (b0 b1 b2 b3 : Byte) : Word := (b3 ++ b2 : BitVec 16) ++ (b1 ++ b0 : BitVec 16)

/-- The bytes of a command word in bus order (20_memory.md R53). -/
def bytesOfCommand (w : Word) : List Byte :=
  [w.extractLsb' 0 8, w.extractLsb' 8 8, w.extractLsb' 16 8, w.extractLsb' 24 8]

/-- The decoder on bytes: one command from the front of the list, and the rest of the list. -/
def decodeBytes : List Byte → Except DecodeReject (Instr × List Byte)
  | b0 :: b1 :: b2 :: b3 :: rest =>
    match decodeCmd (commandOfBytes b0 b1 b2 b3) with
    | .ok i => .ok (i, rest)
    | .error r => .error r
  | _ => .error .truncated

/-- The word of a command: its row of 30_encoding.md R81's table. -/
def encode : Instr → Word
  | .nop => 0x00000000
  | .decode => 0x00000001
  | .write => 0x00000002
  | .extract => 0x00000003

/-- The bytes of a command in bus order. -/
def encodeBytes (i : Instr) : List Byte := bytesOfCommand (encode i)

/-- The instruction the decoder reads from the bits `w` of one opcode-table row (bit 0 least significant, every bit
from `nbits` up taken as 0), laid out as the bus lays a word out. -/
def decodeTableWord (nbits w : Nat) : Option Instr :=
  match decodeBytes (bytesOfCommand (BitVec.ofNat 32 (w % 2 ^ nbits))) with
  | .ok (i, _) => some i
  | .error _ => none

end Sys2Proof
end

