-- ==== Sys2Proof/Machine/State.lean ====
section
/-! DEFINITION. The state of the block (10_state.md R40), the inputs that other agents give it, the reasons a step can
stop, and the state after a power-on reset (70_reset_and_hazards.md R221, R222). -/

namespace Sys2Proof.Machine

/-- Why a step stops. -/
inductive Fault where
  /-- Raised by the write phase of WRITE and EXTRACT when WIDTH*HEIGHT exceeds the 16384 words of FB, an access
  20_memory.md R63 says the engine never makes. No state that satisfies `State.Inv` raises it. Safe: the model stops. -/
  | fbIndexOutOfRange
  deriving DecidableEq, Repr

/-- Why a step has no meaning. -/
inductive Refusal where
  /-- An instruction of the opcode table without a meaning; no arm of `exec` answers so. Safe: the model stops. -/
  | notModelled (mnemonic : String)
  deriving DecidableEq, Repr

/-- The commands the engine performs: the ones that can be pending (10_state.md R36). -/
inductive Op where
  | decode
  | write
  | extract
  deriving DecidableEq, Repr

/-- A pending command: its operation and the IN_LEN latched at its acceptance (10_state.md R36). -/
structure Pending where
  op  : Op
  len : Word
  deriving DecidableEq, Repr

/-- The errors of 60_exceptions.md R191. -/
inductive ErrorCode where
  | invalidBankCount
  | misalignedBufferSize
  | nonSquareTileArrangement
  | ioFailure
  | noGrid
  | illegalCommand
  deriving DecidableEq, Repr

/-- The size of a bus transaction, in bytes (20_memory.md R50). -/
inductive Size where
  | one
  | two
  | four
  deriving DecidableEq, Repr

/-- A host bus transaction (20_memory.md R50). A write carries its value in the low bytes of a word (log 14). -/
inductive Transaction where
  /-- `MemRead(addr, n)`. -/
  | read (addr : Word) (n : Size)
  /-- `MemWrite(addr, n, v)`. -/
  | write (addr : Word) (n : Size) (v : Word)
  deriving DecidableEq, Repr

/-- One step of an agent in the interleaving of 20_memory.md R65. -/
inductive Input where
  /-- The host performs a transaction (R50). -/
  | host (t : Transaction)
  /-- The engine takes its completion step, if it has one (42_sequencer.md R175). -/
  | engine
  /-- The environment resets the block (70_reset_and_hazards.md R220). -/
  | reset
  deriving DecidableEq, Repr

/-- Bytes by address, addresses strictly rising. -/
abbrev Memory := List Host.Cell

/-- The canonical form of a memory: addresses strictly rising. An unlisted address has no value, so no entry can equal
what an unlisted address reads as (log 6). -/
abbrev Memory.wf (m : Memory) : Prop := m.Pairwise fun x y => x.1 < y.1

/-- One RAM of the block: the bytes written since its contents were last unspecified, and the number of the draw that
gives every other byte (70_reset_and_hazards.md R222, R223). -/
structure Ram where
  cells  : Memory
  drawNo : Nat
  deriving DecidableEq, Repr

/-- A RAM of `size` bytes in canonical form. -/
abbrev Ram.wf (size : Nat) (r : Ram) : Prop := r.cells.wf ∧ ∀ c ∈ r.cells, c.1 < size

/-- The values of the parameter OUT_CAP: `0 <= OUT_CAP <= 131072` (00_scope.md R8). -/
abbrev OutCap := Fin (Config.outWindowBytes + 1)

/-- The state of the block: the record of 10_state.md R40, the parameter OUT_CAP, and the model's own fields. -/
structure State where
  /-- PEND (R36); STATUS.BUSY is `pend.isSome` (R37). -/
  pend      : Option Pending
  /-- STATUS.DONE (R24). -/
  done      : Bool
  /-- STATUS.ERR (R24). -/
  err       : Bool
  /-- STATUS.ERRCODE (R24). -/
  errcode   : BitVec 4
  /-- STATUS.GRID_VALID (R24). -/
  gridValid : Bool
  /-- STATUS.OUT_VALID (R24). -/
  outValid  : Bool
  /-- STATUS.HAZ (R24). -/
  haz       : Bool
  /-- IN_LEN (R26). -/
  inLen     : Word
  /-- WIDTH (R27). -/
  width     : Word
  /-- HEIGHT (R28). -/
  height    : Word
  /-- OUT_LEN (R29). -/
  outLen    : Word
  /-- OUT_CAP (R30): a constant of the hardware; no step writes it (log 4). -/
  outCap    : OutCap
  /-- TILE RAM, 8192 bytes (R32). -/
  tile      : Ram
  /-- FB RAM, 16384 words; byte `m` of word `k` is at offset `4*k + m` (R33, 20_memory.md R51). -/
  fb        : Ram
  /-- OUT RAM, OUT_CAP bytes (R34). -/
  out       : Ram
  /-- Model: how many draw numbers have been given out; the next free value is number `draws` (log 7). -/
  draws     : Nat
  /-- Model: the interleaving to come, the next input first (20_memory.md R65, log 1). -/
  inputs    : List Input
  /-- Model: the values returned to the host's reads, the newest first, each widened with zeros (log 3). -/
  answers   : List Word
  deriving DecidableEq, Repr

/-- The state after a power-on reset (70_reset_and_hazards.md R221): every register 0, nothing pending, RAM contents
unspecified (R222), each RAM a draw of its own. OUT_CAP is at its default value (00_scope.md R8; log 4). -/
def State.reset : State where
  pend      := none
  done      := false
  err       := false
  errcode   := 0
  gridValid := false
  outValid  := false
  haz       := false
  inLen     := 0
  width     := 0
  height    := 0
  outLen    := 0
  outCap    := 65590
  tile      := { cells := [], drawNo := 0 }
  fb        := { cells := [], drawNo := 1 }
  out       := { cells := [], drawNo := 2 }
  draws     := 3
  inputs    := []
  answers   := []

end Sys2Proof.Machine
end

