-- ==== Sys2Proof/Machine/Ops.lean ====
section
/-! DEFINITION. The named operations over memories, RAMs and the status fields: byte order, reads and stores, command
acceptance (42_sequencer.md R172), completion (60_exceptions.md R195, R196: the analogue of taking an exception) and
acknowledgement (R199, 10_state.md R25: the analogue of returning from one). -/

namespace Sys2Proof.Machine

/-! ### Byte order (00_scope.md R11, 20_memory.md R53) -/

/-- `v[8m+7:8m]`. -/
def byteOf (v : Word) (m : Nat) : Byte := v.extractLsb' (8 * m) 8

/-- `LE16`: the two bytes of a 16-bit value, least significant first. -/
def le16 (v : BitVec 16) : List Byte := [v.extractLsb' 0 8, v.extractLsb' 8 8]

/-- `LE32`: the four bytes of a word, least significant first. -/
def le32 (v : Word) : List Byte := [byteOf v 0, byteOf v 1, byteOf v 2, byteOf v 3]

/-- The word whose bytes, least significant first, are these. -/
def wordOfBytes (b0 b1 b2 b3 : Byte) : Word := (b3 ++ b2 : BitVec 16) ++ (b1 ++ b0 : BitVec 16)

/-! ### Memories -/

/-- The byte listed at an address, if one is. -/
def Memory.lookup : Memory → Nat → Option Byte
  | [], _ => none
  | (k, b) :: m, a => if a = k then some b else Memory.lookup m a

/-- Store one byte, keeping the addresses rising. -/
def Memory.store : Memory → Nat → Byte → Memory
  | [], a, b => [(a, b)]
  | (k, c) :: m, a, b =>
    if a < k then (a, b) :: (k, c) :: m
    else if a = k then (a, b) :: m
    else (k, c) :: Memory.store m a b

/-- Store consecutive bytes from address `a` up. -/
def Memory.storeBytes : Memory → Nat → List Byte → Memory
  | m, _, [] => m
  | m, a, b :: bs => Memory.storeBytes (m.store a b) (a + 1) bs

/-- Store the bytes `bs` at addresses 0, 1, ... at once: what the engine's loops over a whole RAM leave. -/
def Memory.storePrefix (m : Memory) (bs : List Byte) : Memory :=
  bs.zipIdx.map (fun p => (p.2, p.1)) ++ m.filter (fun c => decide (bs.length ≤ c.1))

/-! ### RAMs -/

/-- A byte of a RAM: the listed byte, or the free byte of the RAM's draw (70_reset_and_hazards.md R222). -/
def Ram.read (r : Ram) (a : Nat) : Byte := (r.cells.lookup a).getD (Config.freeByte r.drawNo a)

/-- Four bytes from offset `a`, least significant first (20_memory.md R53). -/
def Ram.readWord (r : Ram) (a : Nat) : Word :=
  wordOfBytes (r.read a) (r.read (a + 1)) (r.read (a + 2)) (r.read (a + 3))

/-- The first `n` bytes of a RAM, in order. -/
def Ram.bytes (r : Ram) (n : Nat) : List Byte := (List.range n).map r.read

/-- Do the addresses rise strictly, from `a` or above? Linear in the list. -/
def Memory.risesFrom : Memory → Nat → Bool
  | [], _ => true
  | (k, _) :: m, a => decide (a ≤ k) && Memory.risesFrom m (k + 1)

/-- `n` bytes from address `a` up in one walk over a rising list, `free` giving the unlisted ones; `acc` holds the
bytes before them, newest first. -/
def Memory.walk (free : Nat → Byte) : Nat → Nat → Memory → List Byte → List Byte
  | 0, _, _, acc => acc.reverse
  | n + 1, a, [], acc => Memory.walk free n (a + 1) [] (free a :: acc)
  | n + 1, a, (k, b) :: m, acc =>
    if a = k then Memory.walk free n (a + 1) m (b :: acc)
    else Memory.walk free n (a + 1) ((k, b) :: m) (free a :: acc)

theorem Memory_lookup_of_risesFrom (m : Memory) (a i : Nat) (h : m.risesFrom a = true) (hi : i < a) :
    m.lookup i = none := by
  induction m generalizing a with
  | nil => rfl
  | cons c m ih =>
    simp only [Memory.risesFrom, Bool.and_eq_true, decide_eq_true_eq] at h
    rw [Memory.lookup, if_neg (by omega)]
    exact ih (c.1 + 1) h.2 (by omega)

theorem Memory_walk_eq (free : Nat → Byte) (n a : Nat) (m : Memory) (acc : List Byte) (h : m.risesFrom a = true) :
    m.walk free n a acc = acc.reverse ++ (List.range' a n).map fun i => (m.lookup i).getD (free i) := by
  induction n generalizing a m acc with
  | zero => simp [Memory.walk]
  | succ n ih =>
    cases m with
    | nil => simp [Memory.walk, ih (a + 1) [] _ rfl, List.range'_succ, Memory.lookup]
    | cons c m =>
      obtain ⟨k, b⟩ := c
      simp only [Memory.risesFrom, Bool.and_eq_true, decide_eq_true_eq] at h
      by_cases hk : a = k
      · subst hk
        rw [Memory.walk, if_pos rfl, ih (a + 1) m _ h.2, List.range'_succ]
        simp only [List.map_cons, Memory.lookup, if_true, Option.getD_some, List.reverse_cons, List.append_assoc,
          List.singleton_append, List.append_cancel_left_eq, List.cons.injEq, true_and]
        refine List.map_congr_left fun i hi => ?_
        rw [if_neg (by have := List.mem_range'_1.1 hi; omega)]
      · have h' : Memory.risesFrom ((k, b) :: m) (a + 1) = true := by
          simp only [Memory.risesFrom, Bool.and_eq_true, decide_eq_true_eq]; exact ⟨by omega, h.2⟩
        rw [Memory.walk, if_neg hk, ih (a + 1) _ _ h', List.range'_succ, List.map_cons,
          Memory_lookup_of_risesFrom _ (a + 1) a h' (by omega)]
        simp

/-- `Ram.bytes` in one walk, for a RAM in canonical form. -/
def Ram.bytesByWalk (r : Ram) (n : Nat) : List Byte :=
  if r.cells.risesFrom 0 then r.cells.walk (Config.freeByte r.drawNo) n 0 [] else (List.range n).map r.read

/-- Compiled code reads a whole RAM in one walk; the meaning is `Ram.bytes`. -/
@[csimp] theorem Ram_bytes_eq_bytesByWalk : @Ram.bytes = @Ram.bytesByWalk := by
  funext r n
  unfold Ram.bytes Ram.bytesByWalk
  split
  · next h => rw [Memory_walk_eq _ _ _ _ _ h, List.range_eq_range']; rfl
  · rfl

/-- Store consecutive bytes from offset `a` up. -/
def Ram.storeBytes (r : Ram) (a : Nat) (bs : List Byte) : Ram :=
  { r with cells := r.cells.storeBytes a bs }

/-- Store the bytes `bs` at offsets 0, 1, .... -/
def Ram.storePrefix (r : Ram) (bs : List Byte) : Ram :=
  { r with cells := r.cells.storePrefix bs }

/-- Contents that are unspecified from here on: nothing listed, draw number `n` (R222, R223). -/
def Ram.unspecified (n : Nat) : Ram := { cells := [], drawNo := n }

/-! ### What the commands touch -/

/-- The command word's instruction for a pending operation. -/
def Op.instr : Op → Instr
  | .decode => .decode
  | .write => .write
  | .extract => .extract

/-- DECODE and EXTRACT write FB (10_state.md R20). -/
def Op.writesFb : Op → Bool
  | .decode => true
  | .write => false
  | .extract => true

/-- WRITE and EXTRACT write OUT (10_state.md R20). -/
def Op.writesOut : Op → Bool
  | .decode => false
  | .write => true
  | .extract => true

/-! ### Events on the status fields -/

/-- STATUS.BUSY (10_state.md R37). -/
def State.busy (s : State) : Bool := s.pend.isSome

/-- A host write that changes nothing but HAZ: an access violation (20_memory.md R58) or a write dropped while busy
(R59). -/
def flagHazard (s : State) : State := { s with haz := true }

/-- A value returned to the host. -/
def answer (v : Word) (s : State) : State := { s with answers := v :: s.answers }

/-- A host write to IN_LEN (10_state.md R26). -/
def setInLen (v : Word) (s : State) : State := { s with inLen := v }

/-- A host write to the TILE window: the bytes `bs` from offset `o` up (20_memory.md R55). -/
def storeTile (o : Nat) (bs : List Byte) (s : State) : State := { s with tile := s.tile.storeBytes o bs }

/-- A read that is an access violation: it returns 0 and sets HAZ (20_memory.md R58). -/
def violatingRead (s : State) : State := answer 0 (flagHazard s)

/-- `accept(op)` of 42_sequencer.md R172. -/
def accept (op : Op) (s : State) : State :=
  { s with
    done := false
    err := false
    errcode := 0
    gridValid := if op.writesFb then false else s.gridValid
    width := if op.writesFb then 0 else s.width
    height := if op.writesFb then 0 else s.height
    outValid := false
    outLen := 0
    pend := some { op := op, len := s.inLen } }

/-- The number of an error (60_exceptions.md R191). -/
def ErrorCode.code : ErrorCode → BitVec 4
  | .invalidBankCount => 1
  | .misalignedBufferSize => 2
  | .nonSquareTileArrangement => 3
  | .ioFailure => 4
  | .noGrid => 5
  | .illegalCommand => 6

/-- `complete_ok()` of 60_exceptions.md R195. -/
def completeOk (s : State) : State := { s with done := true, pend := none }

/-- `raise Error(e)` of 60_exceptions.md R196. -/
def raiseError (e : ErrorCode) (s : State) : State :=
  { s with err := true, errcode := e.code, pend := none }

/-- `illegalCmd()` of 42_sequencer.md R176: recorded like an error, with PEND untouched. -/
def illegalCmd (s : State) : State :=
  { s with done := false, err := true, errcode := ErrorCode.illegalCommand.code }

/-- The host's acknowledgement: a write of `w` to STATUS (10_state.md R25). -/
def acknowledge (w : Word) (s : State) : State :=
  { s with
    done := if w.getLsbD 1 then false else s.done
    err := if w.getLsbD 2 then false else s.err
    errcode := if w.getLsbD 2 then 0 else s.errcode
    haz := if w.getLsbD 10 then false else s.haz }

/-! ### Running a command -/

/-- How a phase of a command ends. -/
inductive Phase where
  /-- It ran to its end, and left this state. -/
  | ok (s : State)
  /-- It raised an error in this state. -/
  | error (e : ErrorCode) (s : State)
  /-- It would have made an access the spec rules out. -/
  | fault (f : Fault)
  deriving DecidableEq, Repr

/-- The end of the completion step (42_sequencer.md R175): success or an error ends the command. -/
def finish : Phase → Host.Outcome State Fault Refusal
  | .ok s => .next (completeOk s)
  | .error e s => .next (raiseError e s)
  | .fault f => .fault f

/-- One command of the engine in its two atomic steps. With nothing pending, it is the issue of the command
(42_sequencer.md R172). With the command itself pending, it is the engine's completion, `body` of the latched length
(R175). With another command pending, it is a command issued while busy: dropped, HAZ set (R171). (A host write of the
pending command's own word never gets here: R171's test comes first, in `hostWrite`; log 2.) -/
def runCommand (op : Op) (body : Word → State → Phase) (s : State) : Host.Outcome State Fault Refusal :=
  match s.pend with
  | none => .next (accept op s)
  | some p => if p.op = op then finish (body p.len s) else .next (flagHazard s)

end Sys2Proof.Machine
end

