-- ==== Sys2Proof/Machine/Flags.lean ====
section
/-! DEFINITION. The STATUS word: every flag of the block at its place (10_state.md R24, R39). -/

namespace Sys2Proof.Machine

/-- A flag as a word with one bit, at position `i`. -/
def flagBit (b : Bool) (i : Nat) : Word := if b then (1 : Word) <<< i else 0

/-- The value a read of STATUS returns (10_state.md R24): BUSY 0, DONE 1, ERR 2, ERRCODE 7:4, GRID_VALID 8,
OUT_VALID 9, HAZ 10, every reserved bit 0. -/
def statusWord (s : State) : Word :=
  flagBit s.busy 0 ||| flagBit s.done 1 ||| flagBit s.err 2 ||| (s.errcode.setWidth 32 <<< 4)
    ||| flagBit s.gridValid 8 ||| flagBit s.outValid 9 ||| flagBit s.haz 10

end Sys2Proof.Machine
end

