-- ==== Sys2Proof/Machine/Operands.lean ====
section
/-! DEFINITION. What a bus address names (20_memory.md R51 to R57), the value a read of it returns, and the engine's
own operand reads (R63). -/

namespace Sys2Proof.Machine

/-! ### The register window (10_state.md R22) -/

/-- The eight words of the register window. -/
inductive Reg where
  | cmd
  | status
  | inLen
  | width
  | height
  | outLen
  | outCap
  | reserved
  deriving DecidableEq, Repr

/-- The register at a byte offset of the window; none where the access is not aligned (20_memory.md R54). -/
def regAt : Nat → Option Reg
  | 0x00 => some .cmd
  | 0x04 => some .status
  | 0x08 => some .inLen
  | 0x0C => some .width
  | 0x10 => some .height
  | 0x14 => some .outLen
  | 0x18 => some .outCap
  | 0x1C => some .reserved
  | _ => none

/-- The value of a register (10_state.md R23 to R31). -/
def readReg (r : Reg) (s : State) : Word :=
  match r with
  | .cmd => 0
  | .status => statusWord s
  | .inLen => s.inLen
  | .width => s.width
  | .height => s.height
  | .outLen => s.outLen
  | .outCap => BitVec.ofNat 32 s.outCap.val
  | .reserved => 0

/-! ### Address resolution -/

/-- The RAMs of the block (10_state.md R32 to R34). -/
inductive RamName where
  | tile
  | fb
  | out
  deriving DecidableEq, Repr

/-- How wide a permitted RAM access is: a byte or an aligned word (20_memory.md R55 to R57). -/
inductive Width where
  | byte
  | word
  deriving DecidableEq, Repr

/-- What a permitted access names. -/
inductive Target where
  | reg (r : Reg)
  /-- A byte or word of a RAM, at a byte offset. -/
  | ram (m : RamName) (w : Width) (offset : Nat)
  deriving DecidableEq, Repr

/-- The RAM whose window holds an address, and the offset in it (20_memory.md R51). -/
def ramAt (a : Nat) : Option (RamName × Nat) :=
  if Config.tileBase ≤ a ∧ a < Config.tileBase + Config.tileRamBytes then some (.tile, a - Config.tileBase)
  else if Config.fbBase ≤ a ∧ a < Config.fbBase + Config.fbWindowBytes then some (.fb, a - Config.fbBase)
  else if Config.outBase ≤ a ∧ a < Config.outBase + Config.outWindowBytes then some (.out, a - Config.outBase)
  else none

/-- The size and alignment check of the RAM windows (20_memory.md R55 to R57). -/
def ramWidth (n : Size) (offset : Nat) : Option Width :=
  match n with
  | .one => some .byte
  | .two => none
  | .four => if offset % 4 = 0 then some .word else none

/-- What an access of `n` bytes at `addr` names, none for an unmapped address, an unsupported size or a misalignment
(20_memory.md R52, R54 to R58). An aligned word lies in one window, because every window starts and ends at a multiple
of 4 (R52). -/
def resolve (addr : Word) (n : Size) : Option Target :=
  if addr.toNat < Config.regWindowBytes then
    match n with
    | .four => (regAt addr.toNat).map .reg
    | _ => none
  else
    match ramAt addr.toNat with
    | none => none
    | some (m, o) => (ramWidth n o).map fun w => .ram m w o

/-- May the host write it? Not a read-only register (10_state.md R22), not FB, not OUT (20_memory.md R56, R57). -/
def Target.writable : Target → Bool
  | .reg .cmd => true
  | .reg .status => true
  | .reg .inLen => true
  | .reg .width => false
  | .reg .height => false
  | .reg .outLen => false
  | .reg .outCap => false
  | .reg .reserved => true
  | .ram .tile _ _ => true
  | .ram .fb _ _ => false
  | .ram .out _ _ => false

/-- Is a permitted write of it dropped while BUSY? CMD, IN_LEN and TILE (20_memory.md R59). -/
def Target.lockedWhileBusy : Target → Bool
  | .reg .cmd => true
  | .reg .inLen => true
  | .ram .tile _ _ => true
  | .reg _ => false
  | .ram _ _ _ => false

/-- Is a read of it unspecified while `op` is pending? FB while FB is written, OUT while OUT is (20_memory.md R60). -/
def Target.hiddenBy (op : Op) : Target → Bool
  | .ram .fb _ _ => op.writesFb
  | .ram .out _ _ => op.writesOut
  | .ram .tile _ _ => false
  | .reg _ => false

/-! ### Values -/

/-- The byte the host sees at an offset of a RAM's window; in the OUT window, 0 at or above OUT_CAP
(20_memory.md R57). -/
def hostByte (m : RamName) (o : Nat) (s : State) : Byte :=
  match m with
  | .tile => s.tile.read o
  | .fb => s.fb.read o
  | .out => if o < s.outCap.val then s.out.read o else 0

/-- A byte widened with zeros, or four bytes, least significant first (20_memory.md R53). -/
def assemble (w : Width) (byte : Nat → Byte) : Word :=
  match w with
  | .byte => (byte 0).setWidth 32
  | .word => wordOfBytes (byte 0) (byte 1) (byte 2) (byte 3)

/-- The stored value a permitted read returns. -/
def readTarget (t : Target) (s : State) : Word :=
  match t with
  | .reg r => readReg r s
  | .ram m w o => assemble w fun i => hostByte m (o + i) s

/-- The width of a permitted access of a target. -/
def Target.width : Target → Width
  | .reg _ => .word
  | .ram _ w _ => w

/-- The free value of the next draw, of the transaction's width (20_memory.md R60; log 9). -/
def drawValue (w : Width) (s : State) : Word := assemble w fun i => Config.freeByte s.draws i

/-- A read that R60 leaves unspecified: a value of a draw of its own, and no other effect. -/
def answerDraw (w : Width) (s : State) : State :=
  { answer (drawValue w s) s with draws := s.draws + 1 }

/-- The bytes a write of value `v` stores, least significant first (20_memory.md R53, R55). -/
def storedBytes (w : Width) (v : Word) : List Byte :=
  match w with
  | .byte => [byteOf v 0]
  | .word => le32 v

/-- `FB[k]` of 20_memory.md R63. -/
def fbWord (fb : Ram) (k : Nat) : Word := fb.readWord (4 * k)

end Sys2Proof.Machine
end

