-- ==== Sys2Proof/Machine/RasterWriter.lean ====
section
/-! DEFINITION. The Raster Image Writer (41_write.md): file size, the two headers, pixel data, the phase that WRITE and
EXTRACT share, and WRITE. -/

namespace Sys2Proof.Machine

/-- `file_size` (R141). -/
def fileSize (w h : Nat) : Nat := Config.hdrBytes + w * h * 4

/-- A 16-bit header field, little-endian (R144). -/
def field16 (v : Nat) : List Byte := le16 (BitVec.ofNat 16 v)

/-- A 32-bit header field, little-endian (R144). -/
def field32 (v : Nat) : List Byte := le32 (BitVec.ofNat 32 v)

/-- The file header, OUT[0..13] (R142). -/
def fileHeader (w h : Nat) : List Byte :=
  field16 0x4D42 ++ field32 (fileSize w h) ++ field16 0 ++ field16 0 ++ field32 54

/-- The image header, OUT[14..53] (R143). -/
def imageHeader (w h : Nat) : List Byte :=
  field32 40 ++ field32 w ++ field32 h ++ field16 1 ++ field16 32
    ++ field32 0 ++ field32 0 ++ field32 0 ++ field32 0 ++ field32 0 ++ field32 0

/-- The pixel data of `n` grid words from FB[0] up (R145): byte `m` of FB[k], which is `FB[k][8m+7:8m]`
(20_memory.md R56), at position `4k + m`: the bytes of FB in their order, with no flip, padding or conversion
(R146). -/
def pixelData (fb : Ram) (n : Nat) : List Byte := fb.bytes (4 * n)

/-- The whole file image (R149). -/
def fileImage (fb : Ram) (w h : Nat) : List Byte := fileHeader w h ++ imageHeader w h ++ pixelData fb (w * h)

/-- The file size for the present WIDTH and HEIGHT. -/
def State.fileSize (s : State) : Nat := Machine.fileSize s.width.toNat s.height.toNat

/-- The writes of a successful write: the file image at OUT[0..file_size-1], OUT_LEN and OUT_VALID (R149, R152). -/
def storeFile (s : State) : State :=
  { s with
    out := s.out.storePrefix (fileImage s.fb s.width.toNat s.height.toNat)
    outLen := BitVec.ofNat 32 s.fileSize
    outValid := true }

/-- `writeExec()` of R149, up to its `complete_ok()`: NoGrid (R148), then IoFailure (R147), then the writes. The fault
is for states that no run reaches (log 10). -/
def writePhase (s : State) : Phase :=
  if s.gridValid = false then .error .noGrid s
  else if s.outCap.val < s.fileSize then .error .ioFailure s
  else if Config.fbWords < s.width.toNat * s.height.toNat then .fault .fbIndexOutOfRange
  else .ok (storeFile s)

/-- WRITE (R149): its issue when nothing is pending, its completion when it is pending. It reads no length (R140). -/
def execWrite (s : State) : Host.Outcome State Fault Refusal := runCommand .write (fun _ => writePhase) s

end Sys2Proof.Machine
end

