-- ==== Sys2Proof/Machine/TileDecoder.lean ====
section
/-! DEFINITION. The Tile-Plane Decoder (40_decode.md): one definition per stage, the phase that DECODE and EXTRACT
share, and DECODE. `decodeLoop` is R114's loop in its own order; the phase stores the same words in framebuffer order,
which R113 allows. -/

namespace Sys2Proof.Machine

/-! ### Length validation and geometry (R101 to R103) -/

/-- `validate(L)` of R101. -/
def validateLength (len : Word) : Option ErrorCode :=
  if len.toNat % 32 ≠ 0 ∨ len.toNat % Config.bankBytes ≠ 0 then some .misalignedBufferSize
  else if len.toNat / Config.bankBytes ≠ Config.banksAccepted then some .invalidBankCount
  else none

/-- T: the number of tiles in the bank (R102). -/
def tileCount (len : Word) : Nat := len.toNat / Config.tileBytes

/-- G: the number of tiles placed in the square grid (R102). -/
def gridTiles (len : Word) : Nat := tileCount len / 2

/-- The greatest `s <= bound` with `s*s <= n`. -/
def isqrtUpTo : Nat → Nat → Nat
  | 0, _ => 0
  | s + 1, n => if (s + 1) * (s + 1) ≤ n then s + 1 else isqrtUpTo s n

/-- `isqrt(n)`: the greatest `s` with `s*s <= n` (00_scope.md R10). -/
def isqrt (n : Nat) : Nat := isqrtUpTo n n

/-- S: the side of the grid in tiles (R103). -/
def gridSide (len : Word) : Nat := isqrt (gridTiles len)

/-- W and H: the side of a grid of `side` tiles, in pixels (R103). -/
def gridPixels (side : Nat) : Nat := Config.tilePx * side

/-! ### Tile fetch, plane combine (R104 to R107) -/

/-- `lo(t, j)`: the low-plane byte of row `j` of tile `t` (R104). -/
def loByte (tile : Ram) (t j : Nat) : Byte := tile.read (Config.tileBytes * t + j)

/-- `hi(t, j)`: the high-plane byte of row `j` of tile `t` (R104). -/
def hiByte (tile : Ram) (t j : Nat) : Byte := tile.read (Config.tileBytes * t + Config.planeBytes + j)

/-- `v[b]` of 00_scope.md R9, as a number. -/
def bitAt (v : Byte) (b : Nat) : Nat := (v.getLsbD b).toNat

/-- `intensity(t, j, b)` from the two plane bytes of the row: `low_bit + 2*high_bit` (R106). -/
def intensity (lo hi : Byte) (b : Nat) : BitVec 2 := BitVec.ofNat 2 (bitAt lo b + 2 * bitAt hi b)

/-- `unpackRow(lo, hi)`: eight intensities, lane `k` from bit `7 - k` (R107). -/
def unpackRow (lo hi : Byte) : List (BitVec 2) :=
  (List.range Config.tilePx).map fun k => intensity lo hi (7 - k)

/-! ### Permutation (R109 to R111) -/

/-- `r`: the tile row of tile `t` (R109). -/
def tileRow (side t : Nat) : Nat := t / side

/-- `c`: the source tile column of tile `t` (R109). -/
def sourceColumn (side t : Nat) : Nat := t % side

/-- `oc`: the output tile column, the columns being reversed (R109); it is its own inverse. -/
def reverseColumn (side c : Nat) : Nat := side - 1 - c

/-- `x`: the pixel column of lane `k` in output tile column `oc` (R110). -/
def pixelColumn (oc k : Nat) : Nat := Config.tilePx * oc + k

/-- `v`: the visual row of row `j` in tile row `r` (R110). -/
def visualRow (r j : Nat) : Nat := Config.tilePx * r + j

/-- `y = H - v - 1` (R110); it is its own inverse. -/
def flipRow (side v : Nat) : Nat := gridPixels side - v - 1

/-- `y*W + x`: the framebuffer cell of a grid position (R111). -/
def cellIndex (side x y : Nat) : Nat := y * gridPixels side + x

/-! ### The grid in framebuffer order -/

/-- The eight colour words of segment `q` of the framebuffer, which holds words `8q .. 8q+7`: one row of one tile
(R107), through the palette (R108). Segment `q` is output tile column `q mod S` of grid row `q / S`; R109 and R110 are
inverted to find its tile and row (R112). -/
def gridSegment (tile : Ram) (side q : Nat) : List Word :=
  let v := flipRow side (q / side)
  let c := reverseColumn side (q % side)
  let t := (v / Config.tilePx) * side + c
  let j := v % Config.tilePx
  (unpackRow (loByte tile t j) (hiByte tile t j)).map Config.palette

/-- FB[0], FB[1], ...: all `W*H` words of the grid (R112). -/
def gridWords (tile : Ram) (side : Nat) : List Word :=
  (List.range (gridPixels side * side)).flatMap (gridSegment tile side)

/-! ### The loop of R114 -/

/-- The stores of one row of one tile, bits 7 down to 0 (R113): lane `k` stores at `cellIndex x y`. -/
def rowStores (tile : Ram) (side t j : Nat) : List (Nat × Word) :=
  (List.range 8).map fun k =>
    let oc := reverseColumn side (sourceColumn side t)
    let x := pixelColumn oc k
    let y := flipRow side (visualRow (tileRow side t) j)
    (cellIndex side x y, Config.palette (intensity (loByte tile t j) (hiByte tile t j) (7 - k)))

/-- Every store of R114's loop, in its order: tiles, then rows, then bits (R113). -/
def loopStores (tile : Ram) (side tiles : Nat) : List (Nat × Word) :=
  (List.range tiles).flatMap fun t => (List.range 8).flatMap fun j => rowStores tile side t j

/-- R114's loop on the framebuffer, one word at a time. -/
def decodeLoop (tile : Ram) (side tiles : Nat) (fb : Ram) : Ram :=
  (loopStores tile side tiles).foldl (fun fb st => fb.storeBytes (4 * st.1) (le32 st.2)) fb

/-! ### The decode phase and DECODE -/

/-- The writes of a successful decode of a grid of `side` tiles a side: every FB word, WIDTH, HEIGHT and GRID_VALID
(R114, R115). -/
def storeGrid (side : Nat) (s : State) : State :=
  { s with
    fb := s.fb.storePrefix ((gridWords s.tile side).flatMap le32)
    width := BitVec.ofNat 32 (gridPixels side)
    height := BitVec.ofNat 32 (gridPixels side)
    gridValid := true }

/-- `decodeExec(L)` of R114, up to its `complete_ok()`. -/
def decodePhase (len : Word) (s : State) : Phase :=
  match validateLength len with
  | some e => .error e s
  | none =>
    if gridSide len * gridSide len ≠ gridTiles len then .error .nonSquareTileArrangement s
    else .ok (storeGrid (gridSide len) s)

/-- DECODE (R114): its issue when nothing is pending, its completion when it is pending. -/
def execDecode (s : State) : Host.Outcome State Fault Refusal := runCommand .decode decodePhase s

end Sys2Proof.Machine
end

