-- ==== Sys2Proof/Machine/Extract.lean ====
section
/-! DEFINITION. EXTRACT (42_sequencer.md R174): decode, then write, in one command. -/

namespace Sys2Proof.Machine

/-- `extractExec(L)` of R174, up to the `complete_ok()` of its write phase: the write phase runs on the state a
successful decode phase leaves, and its error keeps that state. -/
def extractPhase (len : Word) (s : State) : Phase :=
  match decodePhase len s with
  | .ok t => writePhase t
  | .error e t => .error e t
  | .fault f => .fault f

/-- EXTRACT (R174): its issue when nothing is pending, its completion when it is pending. -/
def execExtract (s : State) : Host.Outcome State Fault Refusal := runCommand .extract extractPhase s

end Sys2Proof.Machine
end

