-- ==== Sys2Proof/Machine/Nop.lean ====
section
/-! DEFINITION. NOP (42_sequencer.md R173). -/

namespace Sys2Proof.Machine

/-- NOP: no state changes when it is issued idle (42_sequencer.md R173); issued while BUSY it is dropped and sets HAZ,
like any CMD write (R171, 30_encoding.md R84). -/
def execNop (s : State) : Host.Outcome State Fault Refusal :=
  .next (if s.busy then flagHazard s else s)

end Sys2Proof.Machine
end

