-- ==== Sys2Proof/Machine/Bus.lean ====
section
/-! DEFINITION. The three kinds of step of 20_memory.md R65: a host transaction, the engine's completion, a reset. -/

namespace Sys2Proof.Machine

/-! ### Host transactions -/

/-- `onCmdWrite(w)` of 42_sequencer.md R170 once BUSY is known to be 0: an illegal word completes at once (R176), any
other is run. -/
def issueCommand (w : Word) (s : State) : Host.Outcome State Fault Refusal :=
  match decodeCmd w with
  | .ok i => exec i s
  | .error _ => .next (illegalCmd s)

/-- The effect of a permitted write that is not dropped (10_state.md R23, R25, R26, R31; 20_memory.md R55). The
targets that are not writable do not reach it. -/
def performWrite (t : Target) (v : Word) (s : State) : Host.Outcome State Fault Refusal :=
  match t with
  | .reg .cmd => issueCommand v s
  | .reg .status => .next (acknowledge v s)
  | .reg .inLen => .next (setInLen v s)
  | .reg _ => .next s
  | .ram .tile w o => .next (storeTile o (storedBytes w v) s)
  | .ram _ _ _ => .next s

/-- `MemWrite(addr, n, v)`: a violation (20_memory.md R58), then the busy drop (R59, 42_sequencer.md R171), then the
write's own effect: the order of 60_exceptions.md R194. -/
def hostWrite (addr : Word) (n : Size) (v : Word) (s : State) : Host.Outcome State Fault Refusal :=
  match resolve addr n with
  | none => .next (flagHazard s)
  | some t =>
    if t.writable = false then .next (flagHazard s)
    else if s.busy ∧ t.lockedWhileBusy then .next (flagHazard s)
    else performWrite t v s

/-- Does 20_memory.md R60 leave a read of the target unspecified now? -/
def State.hides (s : State) (t : Target) : Bool :=
  match s.pend with
  | none => false
  | some p => t.hiddenBy p.op

/-- `MemRead(addr, n)`: a violation returns 0 and sets HAZ (20_memory.md R58); a hidden RAM returns a draw (R60); every
other read returns the stored value with no side effect (R61). -/
def hostRead (addr : Word) (n : Size) (s : State) : State :=
  match resolve addr n with
  | none => violatingRead s
  | some t => if s.hides t then answerDraw t.width s else answer (readTarget t s) s

/-- A host step (20_memory.md R50). -/
def hostStep (t : Transaction) (s : State) : Host.Outcome State Fault Refusal :=
  match t with
  | .read addr n => .next (hostRead addr n s)
  | .write addr n v => hostWrite addr n v s

/-! ### The engine and the environment -/

/-- The engine's step (42_sequencer.md R175): the completion of the pending command. With nothing pending the engine
has no step and the block is idle, its state retained (60_exceptions.md R208; log 15). -/
def engineStep (s : State) : Host.Outcome State Fault Refusal :=
  match s.pend with
  | none => .next s
  | some p => exec p.op.instr s

/-- Did a reset now interrupt a command that writes FB (70_reset_and_hazards.md R223)? -/
def State.fbInterrupted (s : State) : Bool :=
  match s.pend with
  | none => false
  | some p => p.op.writesFb

/-- Did a reset now interrupt a command that writes OUT (70_reset_and_hazards.md R223)? -/
def State.outInterrupted (s : State) : Bool :=
  match s.pend with
  | none => false
  | some p => p.op.writesOut

/-- A reset of the running block (70_reset_and_hazards.md R220 to R223): the registers as after power-on, RAM kept but
for the RAMs a discarded command was writing, which become fresh draws (log 8). The host's own inputs and answers are
not the block's (log 15). -/
def resetStep (s : State) : State :=
  { State.reset with
    outCap := s.outCap
    tile := s.tile
    fb := if s.fbInterrupted then Ram.unspecified s.draws else s.fb
    out := if s.outInterrupted then Ram.unspecified (s.draws + 1) else s.out
    draws := s.draws + 2
    inputs := s.inputs
    answers := s.answers }

/-- The step of one input. -/
def runInput (e : Input) (s : State) : Host.Outcome State Fault Refusal :=
  match e with
  | .host t => hostStep t s
  | .engine => engineStep s
  | .reset => .next (resetStep s)

/-- A command word as the host issues it: the four-byte write to CMD (30_encoding.md R80). -/
def cmdWrite (w : Word) : Input := .host (.write 0x00000000 .four w)

end Sys2Proof.Machine
end

