-- ==== Sys2Proof/Machine/Step.lean ====
section
/-! DEFINITION. One step of the machine, and the word-placing function of the host. -/

namespace Sys2Proof.Machine

/-- One atomic step of the interleaving of 20_memory.md R65: the next input. When the inputs are used up, the engine
completes a command that is still pending (70_reset_and_hazards.md R232), and an idle block stays as it is (log 1). -/
def step (s : State) : Host.Outcome State Fault Refusal :=
  match s.inputs with
  | [] => engineStep s
  | e :: rest => runInput e { s with inputs := rest }

/-- The block fetches nothing (20_memory.md R69): a command takes effect from the host's write to CMD. So the word is
placed as the next input, that write (log 13). -/
def State.withFetchWord (s : State) (nbits w : Nat) : State :=
  { s with inputs := cmdWrite (BitVec.ofNat 32 (w % 2 ^ nbits)) :: s.inputs }

end Sys2Proof.Machine
end

