-- ==== Sys2Proof/Machine/Script.lean ====
section
/-! DEFINITION. Host scripts (30_encoding.md R85, R86) and the host's exit code (42_sequencer.md R177): notation for
lists of bus transactions, and what a script's lines say of the values returned. -/

namespace Sys2Proof.Machine

/-- A line of a host script (30_encoding.md R85). -/
inductive ScriptLine where
  /-- `W32 addr, value` -/
  | w32 (addr value : Word)
  /-- `W8 addr, value` -/
  | w8 (addr : Word) (value : Byte)
  /-- `R32 addr` -/
  | r32 (addr : Word)
  /-- `R8 addr` -/
  | r8 (addr : Word)
  /-- `R32 addr == value` -/
  | r32Is (addr value : Word)
  /-- `R8 addr == value` -/
  | r8Is (addr : Word) (value : Byte)
  /-- `POLL addr, mask, value` -/
  | poll (addr mask value : Word)
  deriving DecidableEq, Repr

/-- The bus transactions of a line (30_encoding.md R85). `polls` is the number of reads a POLL makes, which the rules
do not fix (log 16); no other line depends on it. -/
def ScriptLine.transactions (polls : Nat) : ScriptLine → List Transaction
  | .w32 a v => [.write a .four v]
  | .w8 a v => [.write a .one (v.setWidth 32)]
  | .r32 a => [.read a .four]
  | .r8 a => [.read a .one]
  | .r32Is a _ => [.read a .four]
  | .r8Is a _ => [.read a .one]
  | .poll a _ _ => List.replicate polls (.read a .four)

/-- Does one value returned to a POLL end it: `(r & mask) = value`? -/
def pollEnds (mask value r : Word) : Bool := r &&& mask == value

/-- Are these the values, oldest first, that the reads of a line may return for the script to go on? An asserted read
must equal its value; a POLL goes on until its condition holds, so it holds of the last value and of no earlier one. -/
def ScriptLine.accepts : ScriptLine → List Word → Bool
  | .w32 _ _, vs => vs.isEmpty
  | .w8 _ _, vs => vs.isEmpty
  | .r32 _, vs => vs.length == 1
  | .r8 _, vs => vs.length == 1
  | .r32Is _ v, vs => vs == [v]
  | .r8Is _ v, vs => vs == [v.setWidth 32]
  | .poll _ mask value, vs =>
    match vs.reverse with
    | [] => false
    | r :: earlier => pollEnds mask value r && earlier.all fun e => !pollEnds mask value e

/-- The pseudo-instructions (30_encoding.md R86). -/
inductive Pseudo where
  | nop
  | decode
  | write
  | extract
  | setLen (n : Word)
  | wait
  | clear
  | fill8 (base : Word) (count : Nat) (value : Byte)
  | fill32 (base : Word) (count : Nat) (value : Word)
  | tileB (a : Word) (value : Byte)
  deriving DecidableEq, Repr

/-- The expansion of a pseudo-instruction (30_encoding.md R86). DESIGN CHOICE, unsafe (log 19): `base+i`, `base+4*i`
and `0x2000+a` wrap modulo 2^32; the rules give a line no address when the sum reaches 2^32. -/
def Pseudo.expand : Pseudo → List ScriptLine
  | .nop => [.w32 0x00000000 0x00000000]
  | .decode => [.w32 0x00000000 0x00000001]
  | .write => [.w32 0x00000000 0x00000002]
  | .extract => [.w32 0x00000000 0x00000003]
  | .setLen n => [.w32 0x00000008 n]
  | .wait => [.poll 0x00000004 0x00000001 0x00000000]
  | .clear => [.w32 0x00000004 0x00000406]
  | .fill8 base count value => (List.range count).map fun i => .w8 (base + BitVec.ofNat 32 i) value
  | .fill32 base count value => (List.range count).map fun i => .w32 (base + BitVec.ofNat 32 (4 * i)) value
  | .tileB a value => [.w8 (0x00002000 + a) value]

/-- A script's transactions as inputs of the block, every POLL making `polls` reads. -/
def scriptInputs (polls : Nat) (lines : List ScriptLine) : List Input :=
  (lines.flatMap (ScriptLine.transactions polls)).map .host

/-- The exit code a host reports for a value of STATUS (42_sequencer.md R177): 1 when ERR is 1, 0 when DONE is 1, none
when no command has completed. This is a duty of host software, given here as a function of what it reads. -/
def hostExitCode (status : Word) : Option Nat :=
  if status.getLsbD 2 then some 1 else if status.getLsbD 1 then some 0 else none

end Sys2Proof.Machine
end

