-- ==== Sys2Proof/Safety.lean ====
section
/-! DEFINITION. The terms the statements use: the closed form of the grid (40_decode.md R112), what a valid grid and a
valid file are (10_state.md R38), and the invariant of the block. -/

namespace Sys2Proof
open Machine

/-- FB[n] of a 128 x 128 grid in closed form (40_decode.md R112), for the tile bytes `bank`. -/
def gridCell (bank : Nat → Byte) (n : Nat) : Word :=
  let y := n / 128
  let x := n % 128
  let v := 127 - y
  let r := v / 8
  let j := v % 8
  let oc := x / 8
  let c := 15 - oc
  let k := x % 8
  let t := 16 * r + c
  Config.palette (BitVec.ofNat 2
    (((bank (16 * t + j)).getLsbD (7 - k)).toNat + 2 * ((bank (16 * t + 8 + j)).getLsbD (7 - k)).toNat))

/-- The 54 header bytes of a file of width and height 128: 41_write.md R142 and R143, byte for byte. -/
def header128 : List Byte :=
  [0x42, 0x4D, 0x36, 0x00, 0x01, 0x00, 0x00, 0x00, 0x00, 0x00, 0x36, 0x00, 0x00, 0x00,
   0x28, 0x00, 0x00, 0x00, 0x80, 0x00, 0x00, 0x00, 0x80, 0x00, 0x00, 0x00, 0x01, 0x00, 0x20, 0x00,
   0x00, 0x00, 0x00, 0x00, 0x00, 0x00, 0x00, 0x00, 0x00, 0x00, 0x00, 0x00,
   0x00, 0x00, 0x00, 0x00, 0x00, 0x00, 0x00, 0x00, 0x00, 0x00, 0x00, 0x00]

/-- FB holds the grid of some bank of tile bytes (10_state.md R38: of the bytes present at the last successful decode,
which the host may since have overwritten). -/
def HoldsGrid (fb : Ram) : Prop := ∃ bank : Nat → Byte, ∀ n < 16384, fbWord fb n = gridCell bank n

/-- OUT holds the file image of the grid in FB (10_state.md R38, 41_write.md R149). -/
def HoldsFile (out fb : Ram) : Prop :=
  (∀ o < 54, out.read o = (header128[o]?).getD 0) ∧ ∀ i < 65536, out.read (54 + i) = fb.read i

/-- The accesses the rules permit a read to make (20_memory.md R54 to R57), in plain arithmetic on the address: a byte
of TILE, FB or OUT, or an aligned word of REG, TILE, FB or OUT. Every other read is a violation (R58). -/
def ReadPermitted (addr : Nat) (n : Size) : Prop :=
  (n = .one ∧ (0x2000 ≤ addr ∧ addr ≤ 0x3FFF ∨ 0x10000 ≤ addr ∧ addr ≤ 0x1FFFF ∨ 0x20000 ≤ addr ∧ addr ≤ 0x3FFFF)) ∨
  (n = .four ∧ addr % 4 = 0 ∧
    (addr ≤ 0x1F ∨ 0x2000 ≤ addr ∧ addr ≤ 0x3FFF ∨ 0x10000 ≤ addr ∧ addr ≤ 0x1FFFF ∨
      0x20000 ≤ addr ∧ addr ≤ 0x3FFFF))

/-- The accesses the rules permit a write to make (20_memory.md R54 to R57, 10_state.md R22): a byte of TILE, an aligned
word of TILE, or a word of CMD, STATUS, IN_LEN or the reserved register. Every other write is a violation (R58). -/
def WritePermitted (addr : Nat) (n : Size) : Prop :=
  (n = .one ∧ 0x2000 ≤ addr ∧ addr ≤ 0x3FFF) ∨
  (n = .four ∧ (addr = 0x00 ∨ addr = 0x04 ∨ addr = 0x08 ∨ addr = 0x1C)) ∨
  (n = .four ∧ addr % 4 = 0 ∧ 0x2000 ≤ addr ∧ addr ≤ 0x3FFF)

namespace Machine

/-- The invariant of the block: what 10_state.md says of every reachable state, and the canonical form of the model's
own data. -/
structure State.Inv (s : State) : Prop where
  /-- ERR = 1 iff ERRCODE is not 0 (R24). -/
  err_iff : s.err = true ↔ s.errcode ≠ 0
  /-- Not DONE and ERR together (R24). -/
  not_done_err : ¬ (s.done = true ∧ s.err = true)
  /-- Reachable codes: 0 to 6 (R40), without the unreachable 3 (40_decode.md R103). -/
  errcode_range : s.errcode.toNat ≤ 6 ∧ s.errcode ≠ 3
  /-- BUSY = 1 implies DONE = 0 and ERR = 0 (R24). -/
  busy_clear : s.pend ≠ none → s.done = false ∧ s.err = false
  /-- The latched length is IN_LEN still, since writes to IN_LEN are dropped while BUSY (20_memory.md R59, R69). -/
  latched : ∀ p, s.pend = some p → p.len = s.inLen
  /-- While a command is pending, OUT_VALID is 0, and GRID_VALID too if it writes FB (42_sequencer.md R172). -/
  busy_invalid : ∀ p, s.pend = some p → s.outValid = false ∧ (p.op.writesFb = true → s.gridValid = false)
  /-- WIDTH is 128 with a valid grid, else 0 (R27, R38). -/
  width_eq : s.width = if s.gridValid then 128 else 0
  /-- HEIGHT equals WIDTH (R28). -/
  height_eq : s.height = s.width
  /-- OUT_LEN is 65590 with a valid file, else 0 (R29, R38). -/
  outLen_eq : s.outLen = if s.outValid then 65590 else 0
  /-- A valid file fits OUT and belongs to a valid grid (R38). -/
  outValid_grid : s.outValid = true → s.gridValid = true ∧ 65590 ≤ s.outCap.val
  /-- A valid grid is in FB (R38). -/
  grid : s.gridValid = true → HoldsGrid s.fb
  /-- A valid file is in OUT (R38). -/
  file : s.outValid = true → HoldsFile s.out s.fb
  /-- The RAMs are in canonical form, inside their sizes (R32 to R34). -/
  tile_wf : s.tile.wf 8192
  fb_wf : s.fb.wf 65536
  out_wf : s.out.wf s.outCap.val
  /-- The RAMs' draws are different draws, all given out already. -/
  draws_given : s.tile.drawNo < s.draws ∧ s.fb.drawNo < s.draws ∧ s.out.drawNo < s.draws
  draws_apart : s.tile.drawNo ≠ s.fb.drawNo ∧ s.tile.drawNo ≠ s.out.drawNo ∧ s.fb.drawNo ≠ s.out.drawNo

end Machine
end Sys2Proof
end

