-- ==== Sys2Proof/Certificates/Slice0/Obligations.lean ====
section
/-! DEFINITION. The statements for the provers, from the numbered rules of spec/. `exec i` on a state with nothing
pending is the issue of the command; on a state where the command is pending it is the engine's completion (log 2). -/

open Sys2Proof Sys2Proof.Machine

/-! ### Encoding and running -/

/-- 30_encoding.md R81, every word of 2^32: RSV not 0 is illegal, else OP decides. -/
def Obligations.DecodeCmdFollowsTable : Prop :=
  ∀ w : Word,
    (w.toNat / 16 ≠ 0 → ∃ r, decodeCmd w = .error r) ∧
    (w.toNat / 16 = 0 →
      (w.toNat % 16 = 0 → decodeCmd w = .ok .nop) ∧
      (w.toNat % 16 = 1 → decodeCmd w = .ok .decode) ∧
      (w.toNat % 16 = 2 → decodeCmd w = .ok .write) ∧
      (w.toNat % 16 = 3 → decodeCmd w = .ok .extract) ∧
      (4 ≤ w.toNat % 16 → ∃ r, decodeCmd w = .error r))

/-- 95_test_vectors.md V-E1 to V-E10: the words of the table, written out, and illegal neighbours. -/
def Obligations.VectorWordsDecode : Prop :=
  decodeCmd 0x00000000 = .ok .nop ∧ decodeCmd 0x00000001 = .ok .decode ∧ decodeCmd 0x00000002 = .ok .write ∧
  decodeCmd 0x00000003 = .ok .extract ∧ decodeCmd 0x00000004 = .error .undefinedOp ∧
  decodeCmd 0x0000000F = .error .undefinedOp ∧ decodeCmd 0x00000010 = .error .reservedBits ∧
  decodeCmd 0x80000001 = .error .reservedBits ∧ decodeCmd 0xFFFFFFFF = .error .reservedBits ∧
  decodeCmd 0x00000011 = .error .reservedBits

/-- Decoder and encoder agree both ways on byte lists: the bytes of a command, and only those, decode to it, with the
rest of the list left over (30_encoding.md R80, R81; 20_memory.md R53). -/
def Obligations.DecodeEncodeBytesAgree : Prop :=
  ∀ (bs : List Byte) (i : Instr) (rest : List Byte),
    decodeBytes bs = .ok (i, rest) ↔ bs = encodeBytes i ++ rest

/-- A step runs the decoded command: a CMD write of a word that decodes to `i`, with nothing pending, is `exec i` of
the state with that input taken off (42_sequencer.md R170). -/
def Obligations.StepRunsDecodedCommand : Prop :=
  ∀ (s : State) (w : Word) (i : Instr) (rest : List Input),
    s.inputs = .host (.write 0x00000000 .four w) :: rest → s.pend = none →
    decodeBytes (bytesOfCommand w) = .ok (i, []) → i.wf = true →
    step s = exec i { s with inputs := rest }

/-- The engine's step is `exec` of the pending command (42_sequencer.md R175), whether its turn comes as an input or,
the model's choice of log 1, after the last one. -/
def Obligations.EngineStepRunsPendingCommand : Prop :=
  ∀ (s : State) (len : Word) (rest : List Input),
    (s.inputs = .engine :: rest ∨ s.inputs = [] ∧ rest = []) →
    (s.pend = some ⟨.decode, len⟩ → step s = exec .decode { s with inputs := rest }) ∧
    (s.pend = some ⟨.write, len⟩ → step s = exec .write { s with inputs := rest }) ∧
    (s.pend = some ⟨.extract, len⟩ → step s = exec .extract { s with inputs := rest })

/-- The model's choice, log 13: `withFetchWord` places a command so that the next step runs it. -/
def Obligations.PlacedWordRunsNext : Prop :=
  ∀ (s : State) (i : Instr), s.pend = none →
    step (s.withFetchWord 32 (encode i).toNat) = exec i s

/-! ### NOP, acceptance, illegal words -/

/-- 42_sequencer.md R173: NOP issued idle changes no state; issued while BUSY it sets HAZ and nothing else. -/
def Obligations.NopChangesNothing : Prop :=
  (∀ s : State, s.pend = none → exec .nop s = .next s) ∧
  (∀ (s : State) (rest : List Input),
    s.inputs = .host (.write 0x00000000 .four 0x00000000) :: rest → s.pend ≠ none →
    step s = .next { s with inputs := rest, haz := true })

/-- 42_sequencer.md R172: what acceptance does, for the three commands. -/
def Obligations.AcceptanceEffects : Prop :=
  ∀ s : State, s.pend = none →
    exec .decode s = .next { s with
      done := false, err := false, errcode := 0, gridValid := false, width := 0, height := 0,
      outValid := false, outLen := 0, pend := some ⟨.decode, s.inLen⟩ } ∧
    exec .write s = .next { s with
      done := false, err := false, errcode := 0, outValid := false, outLen := 0,
      pend := some ⟨.write, s.inLen⟩ } ∧
    exec .extract s = .next { s with
      done := false, err := false, errcode := 0, gridValid := false, width := 0, height := 0,
      outValid := false, outLen := 0, pend := some ⟨.extract, s.inLen⟩ }

/-- 42_sequencer.md R171: any CMD write while BUSY is dropped whatever its word. -/
def Obligations.BusyCommandWriteDropped : Prop :=
  ∀ (s : State) (w : Word) (rest : List Input),
    s.inputs = .host (.write 0x00000000 .four w) :: rest → s.pend ≠ none →
    step s = .next { s with inputs := rest, haz := true }

/-- 42_sequencer.md R176: an illegal word issued idle completes at once with code 6. The legal words are 0 to 3
(30_encoding.md R83). -/
def Obligations.IllegalWordCompletesAtOnce : Prop :=
  ∀ (s : State) (w : Word) (rest : List Input),
    s.inputs = .host (.write 0x00000000 .four w) :: rest → s.pend = none → 4 ≤ w.toNat →
    step s = .next { s with inputs := rest, done := false, err := true, errcode := 6 }

/-! ### DECODE -/

/-- 40_decode.md R101: a length that is not a multiple of 32 and of 8192 ends in code 2, any other length but 8192 in
code 1, nothing else changed; 8192 passes, and raises no error. -/
def Obligations.DecodeChecksLength : Prop :=
  ∀ (s : State) (len : Word), s.pend = some ⟨.decode, len⟩ →
    ((len.toNat % 32 ≠ 0 ∨ len.toNat % 8192 ≠ 0) →
      exec .decode s = .next { s with err := true, errcode := 2, pend := none }) ∧
    (len.toNat % 32 = 0 → len.toNat % 8192 = 0 → len.toNat / 8192 ≠ 1 →
      exec .decode s = .next { s with err := true, errcode := 1, pend := none }) ∧
    (len.toNat % 32 = 0 → len.toNat % 8192 = 0 → len.toNat / 8192 = 1 →
      len = 8192 ∧ ∃ t, exec .decode s = .next t ∧ t.done = true ∧ t.err = s.err ∧ t.errcode = s.errcode)

/-- DECODE of 8192 bytes completes: the closed-form grid in FB, the flags and sizes of 40_decode.md R115, and its frame:
nothing else changes. -/
def Obligations.DecodeCompletesWithGrid : Prop :=
  ∀ s : State, s.pend = some ⟨.decode, 8192⟩ →
    ∃ fb : Ram,
      exec .decode s = .next { s with
        fb := fb, width := 128, height := 128, gridValid := true, done := true, pend := none } ∧
      (∀ n < 16384, fbWord fb n = gridCell s.tile.read n) ∧
      (∀ a, 65536 ≤ a → fb.read a = s.fb.read a)

/-- 40_decode.md R112: the placement of R109 to R111 is a bijection from (t, j, k) onto 0..16383, and after a DECODE
every FB word has the closed form. -/
def Obligations.PlacementIsBijection : Prop :=
  (∀ t < 256, ∀ j < 8, ∀ k < 8,
    cellIndex 16 (pixelColumn (reverseColumn 16 (sourceColumn 16 t)) k) (flipRow 16 (visualRow (tileRow 16 t) j))
      < 16384) ∧
  (∀ n < 16384, ∃! p : Nat × Nat × Nat, p.1 < 256 ∧ p.2.1 < 8 ∧ p.2.2 < 8 ∧
    cellIndex 16 (pixelColumn (reverseColumn 16 (sourceColumn 16 p.1)) p.2.2)
      (flipRow 16 (visualRow (tileRow 16 p.1) p.2.1)) = n) ∧
  (∀ s : State, s.pend = some ⟨.decode, 8192⟩ →
    ∃ t, exec .decode s = .next t ∧ ∀ n < 16384, fbWord t.fb n = gridCell s.tile.read n)

/-- The framebuffer a DECODE leaves is, byte for byte and as data, the one R114's loop leaves, storing word after word
in the order of R113; the phase itself stores them in framebuffer order (log 12). -/
def Obligations.DecodeEqualsLoop : Prop :=
  ∀ s : State, s.pend = some ⟨.decode, 8192⟩ → s.fb.wf 65536 →
    ∃ t, exec .decode s = .next t ∧ t.fb = decodeLoop s.tile 16 256 s.fb

/-- 40_decode.md R105, the spec's own reading of its source (92_eei_decisions.md D10, log 17): TILE[4096..8191] have no
effect on a DECODE or an EXTRACT: two states that differ only there end in states that differ only there. -/
def Obligations.SecondHalfOfBankUnread : Prop :=
  ∀ (s : State) (tile : Ram), (∀ a < 4096, tile.read a = s.tile.read a) →
    (∀ len, s.pend = some ⟨.decode, len⟩ → ∃ t, exec .decode s = .next t ∧
      exec .decode { s with tile := tile } = .next { t with tile := tile }) ∧
    (∀ len, s.pend = some ⟨.extract, len⟩ → ∃ t, exec .extract s = .next t ∧
      exec .extract { s with tile := tile } = .next { t with tile := tile })

/-- 40_decode.md R118: two successful DECODEs from the same TILE[0..4095] leave the same FB, WIDTH and HEIGHT, whatever
else differs, and neither writes TILE or IN_LEN. -/
def Obligations.DecodeIsIdempotent : Prop :=
  ∀ s s' : State, s.pend = some ⟨.decode, 8192⟩ → s'.pend = some ⟨.decode, 8192⟩ →
    (∀ a < 4096, s'.tile.read a = s.tile.read a) →
    ∃ t t', exec .decode s = .next t ∧ exec .decode s' = .next t' ∧
      (∀ n < 16384, fbWord t'.fb n = fbWord t.fb n) ∧ t'.width = t.width ∧ t'.height = t.height ∧
      t.tile = s.tile ∧ t.inLen = s.inLen ∧ t'.tile = s'.tile ∧ t'.inLen = s'.inLen

/-- 40_decode.md R106 and R107: lane `k` of a row is `lo[7-k] + 2*hi[7-k]`, a number 0 to 3, for all eight lanes. -/
def Obligations.UnpackRowLanes : Prop :=
  ∀ (lo hi : Byte), (unpackRow lo hi).length = 8 ∧
    ∀ k < 8, ∃ i, (unpackRow lo hi)[k]? = some i ∧
      i.toNat = (lo.getLsbD (7 - k)).toNat + 2 * (hi.getLsbD (7 - k)).toNat

/-- 00_scope.md R10: `isqrt(n)` is the greatest `s` with `s*s <= n`. -/
def Obligations.IsqrtIsGreatestRoot : Prop :=
  ∀ n : Nat, isqrt n * isqrt n ≤ n ∧ ∀ s, s * s ≤ n → s ≤ isqrt n

/-- 00_scope.md R7 (a) and (b), and 40_decode.md R117: the palette words are pairwise distinct with a zero top byte, and
every FB word after a DECODE is one of them, whatever TILE holds. -/
def Obligations.GridWordsArePaletteWords : Prop :=
  (∀ i j : BitVec 2, Config.palette i = Config.palette j → i = j) ∧
  (∀ i : BitVec 2, (Config.palette i).toNat < 2 ^ 24) ∧
  (∀ s : State, s.pend = some ⟨.decode, 8192⟩ →
    ∃ t, exec .decode s = .next t ∧ ∀ n < 16384, ∃ i, fbWord t.fb n = Config.palette i)

/-- The frame of DECODE in every case in which it answers a next state: it leaves TILE, OUT, IN_LEN, OUT_CAP, the
inputs, the answers and the draws alone; FB changes at its completion only, and only with the length 8192; HAZ changes
only when another command is pending. -/
def Obligations.DecodeFrame : Prop :=
  ∀ s t : State, exec .decode s = .next t →
    t.inLen = s.inLen ∧ t.outCap = s.outCap ∧ t.inputs = s.inputs ∧ t.answers = s.answers ∧ t.draws = s.draws ∧
    (∀ a, t.tile.read a = s.tile.read a) ∧ (∀ a, t.out.read a = s.out.read a) ∧
    (s.pend ≠ some ⟨.decode, 8192⟩ → ∀ a, t.fb.read a = s.fb.read a) ∧
    (∀ a, 65536 ≤ a → t.fb.read a = s.fb.read a) ∧
    ((∀ p, s.pend = some p → p.op = .decode) → t.haz = s.haz)

/-! ### WRITE -/

/-- 41_write.md R142 and R143: every header field of a completed WRITE, little-endian, at its offset. -/
def Obligations.WriteHeaderFields : Prop :=
  ∀ (s : State) (len : Word), s.pend = some ⟨.write, len⟩ → s.gridValid = true →
    54 + s.width.toNat * s.height.toNat * 4 ≤ s.outCap.val → s.width.toNat * s.height.toNat ≤ 16384 →
    ∃ t, exec .write s = .next t ∧
      t.out.read 0 = 0x42 ∧ t.out.read 1 = 0x4D ∧
      t.out.readWord 2 = BitVec.ofNat 32 (54 + s.width.toNat * s.height.toNat * 4) ∧
      (∀ o, 6 ≤ o → o < 10 → t.out.read o = 0) ∧ t.out.readWord 10 = 54 ∧
      t.out.readWord 14 = 40 ∧ t.out.readWord 18 = s.width ∧ t.out.readWord 22 = s.height ∧
      t.out.read 26 = 1 ∧ t.out.read 27 = 0 ∧ t.out.read 28 = 32 ∧ t.out.read 29 = 0 ∧
      (∀ o, 30 ≤ o → o < 54 → t.out.read o = 0)

/-- 41_write.md R145: the pixel data of a completed WRITE: byte `m` of grid word `n` at OUT[54 + 4n + m]. -/
def Obligations.WritePixelData : Prop :=
  ∀ (s : State) (len : Word), s.pend = some ⟨.write, len⟩ → s.gridValid = true →
    54 + s.width.toNat * s.height.toNat * 4 ≤ s.outCap.val → s.width.toNat * s.height.toNat ≤ 16384 →
    ∃ t, exec .write s = .next t ∧
      ∀ n < s.width.toNat * s.height.toNat, ∀ m < 4,
        t.out.read (54 + 4 * n + m) = (fbWord s.fb n).extractLsb' (8 * m) 8

/-- The flags and the frame of a completed WRITE (41_write.md R140, R151, R152): OUT at or above the file size, and
every register, flag and RAM not named, unchanged. -/
def Obligations.WriteCompletesWithFile : Prop :=
  ∀ (s : State) (len : Word), s.pend = some ⟨.write, len⟩ → s.gridValid = true →
    54 + s.width.toNat * s.height.toNat * 4 ≤ s.outCap.val → s.width.toNat * s.height.toNat ≤ 16384 →
    ∃ out : Ram,
      exec .write s = .next { s with
        out := out, outLen := BitVec.ofNat 32 (54 + s.width.toNat * s.height.toNat * 4),
        outValid := true, done := true, pend := none } ∧
      ∀ o, fileSize s.width.toNat s.height.toNat ≤ o → out.read o = s.out.read o

/-- 41_write.md R142 and R143 for the one grid the block makes, byte for byte (95_test_vectors.md V-W1). -/
def Obligations.WriteHeaderOf128 : Prop :=
  ∀ (s : State) (len : Word), s.pend = some ⟨.write, len⟩ → s.gridValid = true →
    s.width = 128 → s.height = 128 → 65590 ≤ s.outCap.val →
    ∃ t, exec .write s = .next t ∧ t.outLen = 65590 ∧ ∀ o < 54, t.out.read o = (header128[o]?).getD 0

/-- 41_write.md R147 and R148: NoGrid first, then IoFailure; nothing but ERR, ERRCODE and PEND changes. -/
def Obligations.WriteErrors : Prop :=
  ∀ (s : State) (len : Word), s.pend = some ⟨.write, len⟩ →
    (s.gridValid = false → exec .write s = .next { s with err := true, errcode := 5, pend := none }) ∧
    (s.gridValid = true → s.outCap.val < 54 + s.width.toNat * s.height.toNat * 4 →
      exec .write s = .next { s with err := true, errcode := 4, pend := none })

/-- The model's choice, log 10: a WRITE whose grid would not fit in FB stops. 20_memory.md R63 says no such access is
made, and no state that satisfies the invariant makes one. -/
def Obligations.WriteBeyondFbStops : Prop :=
  ∀ (s : State) (len : Word), s.pend = some ⟨.write, len⟩ → s.gridValid = true →
    54 + s.width.toNat * s.height.toNat * 4 ≤ s.outCap.val → 16384 < s.width.toNat * s.height.toNat →
    exec .write s = .fault .fbIndexOutOfRange

/-- 41_write.md R151: two WRITEs of the same grid leave the same file, byte for byte, whatever OUT held. -/
def Obligations.WriteTwiceSameFile : Prop :=
  ∀ (s s' : State) (len len' : Word), s.pend = some ⟨.write, len⟩ → s'.pend = some ⟨.write, len'⟩ →
    s.gridValid = true → s'.gridValid = true → s.width = 128 → s.height = 128 → s'.width = 128 → s'.height = 128 →
    65590 ≤ s.outCap.val → s'.outCap = s.outCap → (∀ n < 16384, fbWord s'.fb n = fbWord s.fb n) →
    ∃ t t', exec .write s = .next t ∧ exec .write s' = .next t' ∧ ∀ o < 65590, t'.out.read o = t.out.read o

/-- The frame of WRITE in every case in which it answers a next state (41_write.md R140): never FB, TILE, IN_LEN, WIDTH,
HEIGHT, GRID_VALID; OUT below the file size only, and only at its completion without error. -/
def Obligations.WriteFrame : Prop :=
  ∀ s t : State, exec .write s = .next t →
    t.inLen = s.inLen ∧ t.width = s.width ∧ t.height = s.height ∧ t.gridValid = s.gridValid ∧ t.outCap = s.outCap ∧
    t.inputs = s.inputs ∧ t.answers = s.answers ∧ t.draws = s.draws ∧
    (∀ a, t.tile.read a = s.tile.read a) ∧ (∀ a, t.fb.read a = s.fb.read a) ∧
    (∀ a, fileSize s.width.toNat s.height.toNat ≤ a → t.out.read a = s.out.read a) ∧
    (t.outValid = false → ∀ a, t.out.read a = s.out.read a) ∧
    ((∀ p, s.pend = some p → p.op = .write) → t.haz = s.haz)

/-! ### EXTRACT -/

/-- EXTRACT of 8192 bytes with room in OUT completes (42_sequencer.md R174): the grid in FB, its file in OUT, the flags
and sizes, and its frame. -/
def Obligations.ExtractCompletes : Prop :=
  ∀ s : State, s.pend = some ⟨.extract, 8192⟩ → 65590 ≤ s.outCap.val →
    ∃ fb out : Ram,
      exec .extract s = .next { s with
        fb := fb, out := out, width := 128, height := 128, gridValid := true,
        outLen := 65590, outValid := true, done := true, pend := none } ∧
      (∀ n < 16384, fbWord fb n = gridCell s.tile.read n) ∧
      (∀ a, 65536 ≤ a → fb.read a = s.fb.read a) ∧
      (∀ o < 54, out.read o = (header128[o]?).getD 0) ∧
      (∀ n < 16384, out.readWord (54 + 4 * n) = gridCell s.tile.read n) ∧
      (∀ o, 65590 ≤ o → out.read o = s.out.read o)

/-- The errors of EXTRACT in their order (42_sequencer.md R174, 60_exceptions.md R193): a decode error writes nothing;
an IoFailure keeps the whole effect of the decode phase, and OUT is not written. -/
def Obligations.ExtractErrors : Prop :=
  ∀ (s : State) (len : Word), s.pend = some ⟨.extract, len⟩ →
    (len.toNat % 8192 ≠ 0 → exec .extract s = .next { s with err := true, errcode := 2, pend := none }) ∧
    (len.toNat % 8192 = 0 → len.toNat ≠ 8192 →
      exec .extract s = .next { s with err := true, errcode := 1, pend := none }) ∧
    (len.toNat = 8192 → s.outCap.val < 65590 →
      ∃ fb : Ram,
        exec .extract s = .next { s with
          fb := fb, width := 128, height := 128, gridValid := true, err := true, errcode := 4, pend := none } ∧
        ∀ n < 16384, fbWord fb n = gridCell s.tile.read n)

/-- EXTRACT is DECODE, then, only on its success, WRITE (42_sequencer.md R174): its completion is the completion of a
WRITE pending on the state that the completion of a DECODE leaves, DONE not yet set; a failed DECODE is its end. -/
def Obligations.ExtractIsDecodeThenWrite : Prop :=
  ∀ (s : State) (len : Word), s.pend = some ⟨.extract, len⟩ →
    ∃ d, exec .decode { s with pend := some ⟨.decode, len⟩ } = .next d ∧
      (len.toNat = 8192 →
        exec .extract s = exec .write { d with done := s.done, pend := some ⟨.write, len⟩ }) ∧
      (len.toNat ≠ 8192 → exec .extract s = .next d)

/-- The frame of EXTRACT in every case in which it answers a next state: never TILE, IN_LEN or OUT_CAP; FB at its
completion with the length 8192 only; OUT below 65590 only, and only when the file fits. -/
def Obligations.ExtractFrame : Prop :=
  ∀ s t : State, exec .extract s = .next t →
    t.inLen = s.inLen ∧ t.outCap = s.outCap ∧ t.inputs = s.inputs ∧ t.answers = s.answers ∧ t.draws = s.draws ∧
    (∀ a, t.tile.read a = s.tile.read a) ∧
    (s.pend ≠ some ⟨.extract, 8192⟩ → ∀ a, t.fb.read a = s.fb.read a) ∧
    (∀ a, 65536 ≤ a → t.fb.read a = s.fb.read a) ∧
    (s.pend ≠ some ⟨.extract, 8192⟩ ∨ s.outCap.val < 65590 → ∀ a, t.out.read a = s.out.read a) ∧
    (∀ a, fileSize 128 128 ≤ a → t.out.read a = s.out.read a) ∧
    ((∀ p, s.pend = some p → p.op = .extract) → t.haz = s.haz)

/-- The whole pipeline: with 8192 in IN_LEN and room in OUT, issuing EXTRACT on an idle block and letting the engine
complete it (the second step, with no input left: the model's choice, log 1) leaves DONE, GRID_VALID and OUT_VALID, in FB the grid of the tile bytes and in OUT its file: the 54 header
bytes, then every pixel in closed form (42_sequencer.md R172, R174, 40_decode.md R112, 41_write.md R142 to R145; the
run of 95_test_vectors.md P2 for every bank). -/
def Obligations.ExtractEndToEnd : Prop :=
  ∀ s : State, s.pend = none → s.inLen = 8192 → 65590 ≤ s.outCap.val →
    s.inputs = [.host (.write 0x00000000 .four 0x00000003)] →
    ∃ t : State, core.run 2 s = .next t ∧
      t.pend = none ∧ t.done = true ∧ t.err = false ∧ t.errcode = 0 ∧ t.gridValid = true ∧ t.outValid = true ∧
      t.haz = s.haz ∧ t.width = 128 ∧ t.height = 128 ∧ t.outLen = 65590 ∧ t.tile = s.tile ∧
      (∀ n < 16384, fbWord t.fb n = gridCell s.tile.read n) ∧
      (∀ o < 54, t.out.read o = (header128[o]?).getD 0) ∧
      (∀ n < 16384, t.out.readWord (54 + 4 * n) = gridCell s.tile.read n)

/-! ### The register window -/

/-- 10_state.md R24: the fields of a STATUS read at their bits, and 0 in every reserved bit; the read has no other
effect. BUSY is 1 exactly when a command is pending (R37). -/
def Obligations.StatusReadLayout : Prop :=
  ∀ (s : State) (rest : List Input), s.inputs = .host (.read 0x00000004 .four) :: rest →
    ∃ v : Word, step s = .next { s with inputs := rest, answers := v :: s.answers } ∧
      v.getLsbD 0 = s.pend.isSome ∧ v.getLsbD 1 = s.done ∧ v.getLsbD 2 = s.err ∧ v.getLsbD 3 = false ∧
      v.extractLsb' 4 4 = s.errcode ∧ v.getLsbD 8 = s.gridValid ∧ v.getLsbD 9 = s.outValid ∧
      v.getLsbD 10 = s.haz ∧ v.extractLsb' 11 21 = 0

/-- 10_state.md R25: a write to STATUS clears DONE, ERR with ERRCODE, and HAZ where its bits 1, 2 and 10 are 1, and does
nothing else, BUSY or not. -/
def Obligations.StatusWriteClears : Prop :=
  ∀ (s : State) (w : Word) (rest : List Input), s.inputs = .host (.write 0x00000004 .four w) :: rest →
    step s = .next { s with
      inputs := rest
      done := if w.getLsbD 1 then false else s.done
      err := if w.getLsbD 2 then false else s.err
      errcode := if w.getLsbD 2 then 0 else s.errcode
      haz := if w.getLsbD 10 then false else s.haz }

/-- The other registers (10_state.md R22, R23, R26 to R31): what a read returns, with no other effect, and that a write
to IN_LEN while idle stores it, to the reserved register does nothing, and to a read-only register only sets HAZ. -/
def Obligations.RegisterAccesses : Prop :=
  (∀ (s : State) (a v : Word) (rest : List Input), s.inputs = .host (.read a .four) :: rest →
    (a = 0x00 ∧ v = 0 ∨ a = 0x08 ∧ v = s.inLen ∨ a = 0x0C ∧ v = s.width ∨ a = 0x10 ∧ v = s.height ∨
      a = 0x14 ∧ v = s.outLen ∨ a = 0x18 ∧ v = BitVec.ofNat 32 s.outCap.val ∨ a = 0x1C ∧ v = 0) →
    step s = .next { s with inputs := rest, answers := v :: s.answers }) ∧
  (∀ (s : State) (v : Word) (rest : List Input), s.inputs = .host (.write 0x08 .four v) :: rest → s.pend = none →
    step s = .next { s with inputs := rest, inLen := v }) ∧
  (∀ (s : State) (v : Word) (rest : List Input), s.inputs = .host (.write 0x1C .four v) :: rest →
    step s = .next { s with inputs := rest }) ∧
  (∀ (s : State) (a v : Word) (rest : List Input), s.inputs = .host (.write a .four v) :: rest →
    (a = 0x0C ∨ a = 0x10 ∨ a = 0x14 ∨ a = 0x18) →
    step s = .next { s with inputs := rest, haz := true })

/-! ### The RAM windows and violations -/

/-- 20_memory.md R55 and R53: a write to TILE while idle stores its bytes, least significant at the lowest address, and
changes no other byte and nothing else. -/
def Obligations.TileWrites : Prop :=
  (∀ (s : State) (a v : Word) (o : Nat) (rest : List Input), s.inputs = .host (.write a .four v) :: rest →
    s.pend = none → a.toNat = 0x2000 + o → o < 8192 → o % 4 = 0 →
    ∃ tile, step s = .next { s with inputs := rest, tile := tile } ∧
      ∀ b, tile.read b = if o ≤ b ∧ b < o + 4 then v.extractLsb' (8 * (b - o)) 8 else s.tile.read b) ∧
  (∀ (s : State) (a v : Word) (o : Nat) (rest : List Input), s.inputs = .host (.write a .one v) :: rest →
    s.pend = none → a.toNat = 0x2000 + o → o < 8192 →
    ∃ tile, step s = .next { s with inputs := rest, tile := tile } ∧
      ∀ b, tile.read b = if b = o then v.extractLsb' 0 8 else s.tile.read b)

/-- Permitted reads of the RAM windows that nothing hides (20_memory.md R55, R56, R57): a byte, and an aligned word in
little-endian order; TILE even while BUSY; OUT at or above OUT_CAP reads 0; no side effect, no HAZ. -/
def Obligations.RamReads : Prop :=
  (∀ (s : State) (a : Word) (o : Nat) (rest : List Input), a.toNat = 0x2000 + o → o < 8192 →
    (s.inputs = .host (.read a .one) :: rest →
      step s = .next { s with inputs := rest, answers := (s.tile.read o).setWidth 32 :: s.answers }) ∧
    (s.inputs = .host (.read a .four) :: rest → o % 4 = 0 →
      step s = .next { s with inputs := rest, answers := s.tile.readWord o :: s.answers })) ∧
  (∀ (s : State) (a : Word) (o : Nat) (rest : List Input), a.toNat = 0x10000 + o → o < 65536 →
    (∀ p, s.pend = some p → p.op = .write) →
    (s.inputs = .host (.read a .one) :: rest →
      step s = .next { s with
        inputs := rest,
        answers := ((fbWord s.fb (o / 4)).extractLsb' (8 * (o % 4)) 8).setWidth 32 :: s.answers }) ∧
    (s.inputs = .host (.read a .four) :: rest → o % 4 = 0 →
      step s = .next { s with inputs := rest, answers := fbWord s.fb (o / 4) :: s.answers })) ∧
  (∀ (s : State) (a : Word) (o : Nat) (rest : List Input), a.toNat = 0x20000 + o → o < 131072 →
    (∀ p, s.pend = some p → p.op = .decode) →
    (s.inputs = .host (.read a .one) :: rest →
      step s = .next { s with
        inputs := rest,
        answers := (if o < s.outCap.val then (s.out.read o).setWidth 32 else 0) :: s.answers }) ∧
    (s.inputs = .host (.read a .four) :: rest → o % 4 = 0 →
      ∃ v : Word, step s = .next { s with inputs := rest, answers := v :: s.answers } ∧
        ∀ m < 4, v.extractLsb' (8 * m) 8 = if o + m < s.outCap.val then s.out.read (o + m) else 0))

/-- 20_memory.md R58: a violating write changes only HAZ; a violating read returns 0 and sets HAZ. The permitted
accesses are those of R54 to R57 and 10_state.md R22, in plain arithmetic. -/
def Obligations.ViolationEffects : Prop :=
  (∀ (s : State) (a v : Word) (n : Size) (rest : List Input), s.inputs = .host (.write a n v) :: rest →
    ¬ WritePermitted a.toNat n → step s = .next { s with inputs := rest, haz := true }) ∧
  (∀ (s : State) (a : Word) (n : Size) (rest : List Input), s.inputs = .host (.read a n) :: rest →
    ¬ ReadPermitted a.toNat n → step s = .next { s with inputs := rest, haz := true, answers := 0 :: s.answers })

/-- 20_memory.md R61: a permitted read has no side effect on the block: it returns a value and changes nothing else of
the spec's state, HAZ included. (`draws` is the model's own counter of free values.) -/
def Obligations.PermittedReadsHaveNoEffect : Prop :=
  ∀ (s : State) (a : Word) (n : Size) (rest : List Input), s.inputs = .host (.read a n) :: rest →
    ReadPermitted a.toNat n →
    ∃ (v : Word) (d : Nat), step s = .next { s with inputs := rest, answers := v :: s.answers, draws := d }

/-- 20_memory.md R59: while BUSY, a permitted write to CMD, IN_LEN or TILE is dropped and sets HAZ. -/
def Obligations.BusyWritesDropped : Prop :=
  ∀ (s : State) (a v : Word) (n : Size) (rest : List Input), s.inputs = .host (.write a n v) :: rest →
    s.pend ≠ none → WritePermitted a.toNat n → a.toNat ≠ 0x04 → a.toNat ≠ 0x1C →
    step s = .next { s with inputs := rest, haz := true }

/-- 20_memory.md R60: while a command writes a RAM, a permitted read of its window returns a free value of the
transaction's width, sets no HAZ and changes nothing else. The value is made of the bytes of draw number `draws`, an
uninterpreted constant, and each such read counts one draw: the model's form of `draw`, log 9. -/
def Obligations.HiddenReadsDraw : Prop :=
  ∀ (s : State) (a : Word) (n : Size) (p : Pending) (rest : List Input), s.inputs = .host (.read a n) :: rest →
    s.pend = some p → ReadPermitted a.toNat n →
    (0x10000 ≤ a.toNat ∧ a.toNat ≤ 0x1FFFF ∧ p.op ≠ .write ∨
      0x20000 ≤ a.toNat ∧ a.toNat ≤ 0x3FFFF ∧ p.op ≠ .decode) →
    (n = .one → step s = .next { s with
      inputs := rest, answers := assemble .byte (Config.freeByte s.draws) :: s.answers, draws := s.draws + 1 }) ∧
    (n = .four → step s = .next { s with
      inputs := rest, answers := assemble .word (Config.freeByte s.draws) :: s.answers, draws := s.draws + 1 }) ∧
    (assemble .byte (Config.freeByte s.draws)).toNat < 256

/-! ### Idle and reset -/

/-- 60_exceptions.md R208: with nothing pending and no host access, the block is idle and keeps all its state. That an
engine's turn then does nothing is the model's choice, log 15. -/
def Obligations.IdleKeepsState : Prop :=
  ∀ s : State, s.pend = none →
    (s.inputs = [] → step s = .next s) ∧
    (∀ rest, s.inputs = .engine :: rest → step s = .next { s with inputs := rest })

/-- 70_reset_and_hazards.md R221: the registers after power-on and after a reset that comes at any moment; OUT_CAP is a
constant. -/
def Obligations.ResetRegisterValues : Prop :=
  (State.reset.pend = none ∧ State.reset.done = false ∧ State.reset.err = false ∧ State.reset.errcode = 0 ∧
    State.reset.gridValid = false ∧ State.reset.outValid = false ∧ State.reset.haz = false ∧ State.reset.inLen = 0 ∧
    State.reset.width = 0 ∧ State.reset.height = 0 ∧ State.reset.outLen = 0) ∧
  (∀ (s : State) (rest : List Input), s.inputs = .reset :: rest →
    ∃ t, step s = .next t ∧ t.pend = none ∧ t.done = false ∧ t.err = false ∧ t.errcode = 0 ∧ t.gridValid = false ∧
      t.outValid = false ∧ t.haz = false ∧ t.inLen = 0 ∧ t.width = 0 ∧ t.height = 0 ∧ t.outLen = 0 ∧
      t.outCap = s.outCap)

/-- 70_reset_and_hazards.md R222 and R223: a reset keeps every RAM, but for the RAMs an interrupted command was writing:
none of their bytes keeps a stored value, and their free bytes are of a draw that no RAM had before (log 8). -/
def Obligations.ResetKeepsOrRedrawsRam : Prop :=
  ∀ (s : State) (rest : List Input), s.inputs = .reset :: rest → s.Inv →
    ∃ t, step s = .next t ∧ t.tile = s.tile ∧
      ((∀ p, s.pend = some p → p.op = .write) → t.fb = s.fb) ∧
      ((∀ p, s.pend = some p → p.op = .decode) → t.out = s.out) ∧
      (∀ p, s.pend = some p → p.op ≠ .write → t.fb.cells = [] ∧
        t.fb.drawNo ≠ s.tile.drawNo ∧ t.fb.drawNo ≠ s.fb.drawNo ∧ t.fb.drawNo ≠ s.out.drawNo) ∧
      (∀ p, s.pend = some p → p.op ≠ .decode → t.out.cells = [] ∧
        t.out.drawNo ≠ s.tile.drawNo ∧ t.out.drawNo ≠ s.fb.drawNo ∧ t.out.drawNo ≠ s.out.drawNo)

/-! ### Rules of the whole machine -/

/-- The invariant holds after a power-on reset (70_reset_and_hazards.md R221). -/
def Obligations.InvHoldsAtReset : Prop := State.reset.Inv

/-- Every step keeps the invariant: what 10_state.md R24, R27 to R29 and R38 say of every reachable state, and the
canonical form of the memories. -/
def Obligations.StepKeepsInv : Prop :=
  ∀ s t : State, s.Inv → step s = .next t → t.Inv

/-- No step of a state that satisfies the invariant faults or is refused: the block never traps (60_exceptions.md R190)
and no behaviour of it is stuck (93_implementation_defined.md). -/
def Obligations.InvStatesNeverStop : Prop :=
  ∀ s : State, s.Inv → ∃ t, step s = .next t

/-- 70_reset_and_hazards.md R232, with a bound that is the model's choice, log 1: once the inputs are used up, one more
step completes whatever command is pending. -/
def Obligations.PendingCommandCompletes : Prop :=
  ∀ s : State, s.Inv →
    ∃ t : State, core.run (s.inputs.length + 1) s = .next t ∧ t.inputs = [] ∧ t.pend = none ∧ t.Inv

/-- 60_exceptions.md R200: HAZ, once set, stays set through every step but a STATUS write with bit 10 and a reset. -/
def Obligations.HazIsSticky : Prop :=
  ∀ s t : State, step s = .next t → s.haz = true →
    (∀ w rest, s.inputs = .host (.write 0x00000004 .four w) :: rest → w.getLsbD 10 = false) →
    (∀ rest, s.inputs ≠ .reset :: rest) → t.haz = true

/-- 10_state.md R32: only a host write to the TILE window changes a TILE byte: no command, no other access and no reset
does. -/
def Obligations.OnlyHostWritesTile : Prop :=
  ∀ s t : State, step s = .next t →
    (∀ a n v rest, s.inputs = .host (.write a n v) :: rest → a.toNat < 0x2000 ∨ 0x3FFF < a.toNat) →
    ∀ a, t.tile.read a = s.tile.read a

/-- 10_state.md R33: only the completion of a DECODE or EXTRACT changes an FB byte; no host access does, and no reset
does unless such a command is pending. -/
def Obligations.OnlyDecodeWritesFb : Prop :=
  ∀ s t : State, step s = .next t →
    ((∀ p, s.pend = some p → p.op = .write) ∨ ∃ tr rest, s.inputs = .host tr :: rest) →
    ∀ a, t.fb.read a = s.fb.read a

/-- 10_state.md R34: only the completion of a WRITE or EXTRACT changes an OUT byte; no host access does, and no reset
does unless such a command is pending. -/
def Obligations.OnlyWriteWritesOut : Prop :=
  ∀ s t : State, step s = .next t →
    ((∀ p, s.pend = some p → p.op = .decode) ∨ ∃ tr rest, s.inputs = .host tr :: rest) →
    ∀ a, t.out.read a = s.out.read a

/-- No step changes OUT_CAP (10_state.md R30), and IN_LEN changes by a host write to it or a reset only: no command
changes it (R26, 60_exceptions.md R197). -/
def Obligations.OutCapAndInLenKept : Prop :=
  ∀ s t : State, step s = .next t → t.outCap = s.outCap ∧
    ((∀ v rest, s.inputs ≠ .host (.write 0x00000008 .four v) :: rest) → (∀ rest, s.inputs ≠ .reset :: rest) →
      t.inLen = s.inLen)

/-- GRID_VALID rises only when a DECODE or EXTRACT of 8192 bytes is completed, OUT_VALID only when a WRITE or EXTRACT
is, and then the block was BUSY before and is not after (10_state.md R24, R38). -/
def Obligations.ValidityRisesAtCompletion : Prop :=
  ∀ s t : State, step s = .next t →
    (s.gridValid = false → t.gridValid = true →
      (s.pend = some ⟨.decode, 8192⟩ ∨ s.pend = some ⟨.extract, 8192⟩) ∧ t.pend = none) ∧
    (s.outValid = false → t.outValid = true →
      (∃ len, s.pend = some ⟨.write, len⟩ ∨ s.pend = some ⟨.extract, len⟩) ∧ t.pend = none ∧ t.done = true)

/-! ### Host scripts -/

/-- 30_encoding.md R86: the four command pseudo-instructions, each one line of a host script, run the command of their
name on an idle block. -/
def Obligations.CommandPseudoInstructionsRun : Prop :=
  ∀ (s : State) (polls : Nat) (rest : List Input), s.pend = none →
    (s.inputs = scriptInputs polls Pseudo.nop.expand ++ rest → step s = exec .nop { s with inputs := rest }) ∧
    (s.inputs = scriptInputs polls Pseudo.decode.expand ++ rest → step s = exec .decode { s with inputs := rest }) ∧
    (s.inputs = scriptInputs polls Pseudo.write.expand ++ rest → step s = exec .write { s with inputs := rest }) ∧
    (s.inputs = scriptInputs polls Pseudo.extract.expand ++ rest →
      step s = exec .extract { s with inputs := rest })

/-- 30_encoding.md R86: SETLEN stores the length on an idle block; CLEAR clears DONE, ERR with ERRCODE, and HAZ, and
nothing else. -/
def Obligations.SetLenAndClearScripts : Prop :=
  ∀ (s : State) (polls : Nat) (n : Word) (rest : List Input),
    (s.pend = none → s.inputs = scriptInputs polls (Pseudo.setLen n).expand ++ rest →
      step s = .next { s with inputs := rest, inLen := n }) ∧
    (s.inputs = scriptInputs polls Pseudo.clear.expand ++ rest →
      step s = .next { s with inputs := rest, done := false, err := false, errcode := 0, haz := false })
end

