-- ==== Sys2Proof/Laws/Lists.lean ====
section
/-! SUPPORT. Indexing a list made of blocks of one length: what the grid, the words' bytes and the loop are. -/

namespace Sys2Proof.Laws

variable {α β : Type}

theorem length_flatMap_blocks (f : α → List β) (k : Nat) (hf : ∀ a, (f a).length = k) (l : List α) :
    (l.flatMap f).length = k * l.length := by
  induction l with
  | nil => simp
  | cons a l ih => simp [List.flatMap_cons, hf, ih]; ring

/-- Element `i` of a list of blocks of length `k` is element `i % k` of block `i / k`. -/
theorem getElem?_flatMap_blocks (f : α → List β) (k : Nat) (hk : 0 < k) (hf : ∀ a, (f a).length = k) (l : List α)
    (i : Nat) : (l.flatMap f)[i]? = (l[i / k]?).bind fun a => (f a)[i % k]? := by
  induction l generalizing i with
  | nil => simp
  | cons a l ih =>
    rw [List.flatMap_cons, List.getElem?_append, hf]
    by_cases h : i < k
    · simp [h, Nat.div_eq_of_lt h, Nat.mod_eq_of_lt h]
    · obtain ⟨j, rfl⟩ := Nat.exists_eq_add_of_le (Nat.le_of_not_lt h)
      have hd : (k + j) / k = j / k + 1 := by rw [Nat.add_comm, Nat.add_div_right j hk]
      simp [ih, hd]

/-- The same over a range: element `i` of the blocks `f 0, f 1, ..., f (n-1)`. -/
theorem getElem?_flatMap_range (f : Nat → List β) (k : Nat) (hk : 0 < k) (hf : ∀ a, (f a).length = k) (n i : Nat)
    (hi : i < k * n) : ((List.range n).flatMap f)[i]? = (f (i / k))[i % k]? := by
  have h : i / k < n := Nat.div_lt_of_lt_mul hi
  rw [getElem?_flatMap_blocks f k hk hf, List.getElem?_range h]
  rfl

end Sys2Proof.Laws
end

