-- ==== Sys2Proof/Laws/Bytes.lean ====
section
/-! SUPPORT. Byte order: splitting a word into bytes and assembling it again. -/

namespace Sys2Proof.Laws
open Sys2Proof.Machine

@[simp] theorem length_le32 (v : Word) : (le32 v).length = 4 := by simp [le32]

@[simp] theorem length_le16 (v : BitVec 16) : (le16 v).length = 2 := by simp [le16]

/-- Byte `m` of a word's little-endian bytes is `v[8m+7:8m]`. -/
theorem getElem?_le32 (v : Word) (m : Nat) (h : m < 4) : (le32 v)[m]? = some (byteOf v m) := by
  obtain rfl | rfl | rfl | rfl : m = 0 ∨ m = 1 ∨ m = 2 ∨ m = 3 := by omega
  all_goals rfl

theorem wordOfBytes_le32 (v : Word) : wordOfBytes (byteOf v 0) (byteOf v 1) (byteOf v 2) (byteOf v 3) = v := by
  refine BitVec.eq_of_getLsbD_eq fun i hi => ?_
  simp only [wordOfBytes, byteOf, BitVec.getLsbD_append, BitVec.getLsbD_extractLsb']
  split <;> split <;>
    (rw [decide_eq_true (by omega), Bool.true_and]; congr 1; omega)

theorem byteOf_wordOfBytes (b0 b1 b2 b3 : Byte) (m : Nat) :
    byteOf (wordOfBytes b0 b1 b2 b3) m =
      if m = 0 then b0 else if m = 1 then b1 else if m = 2 then b2 else if m = 3 then b3 else 0 := by
  refine BitVec.eq_of_getLsbD_eq fun i hi => ?_
  simp only [wordOfBytes, byteOf, BitVec.getLsbD_extractLsb', BitVec.getLsbD_append, hi, decide_true, Bool.true_and]
  obtain rfl | rfl | rfl | rfl | h : m = 0 ∨ m = 1 ∨ m = 2 ∨ m = 3 ∨ 4 ≤ m := by omega
  · rw [if_pos (by omega), if_pos (by omega), if_pos rfl]; congr 1; omega
  · rw [if_pos (by omega), if_neg (by omega), if_neg (by omega), if_pos rfl]; congr 1; omega
  · rw [if_neg (by omega), if_pos (by omega), if_neg (by omega), if_neg (by omega), if_pos rfl]; congr 1; omega
  · rw [if_neg (by omega), if_neg (by omega), if_neg (by omega), if_neg (by omega), if_neg (by omega), if_pos rfl]
    congr 1; omega
  · rw [if_neg (by omega), if_neg (by omega), if_neg (by omega), if_neg (by omega), if_neg (by omega),
      if_neg (by omega), BitVec.getLsbD_of_ge _ _ (by omega)]
    simp

/-- The little-endian bytes of an assembled word are the bytes it was assembled from. -/
theorem le32_wordOfBytes (b0 b1 b2 b3 : Byte) : le32 (wordOfBytes b0 b1 b2 b3) = [b0, b1, b2, b3] := by
  simp [le32, byteOf_wordOfBytes]

end Sys2Proof.Laws
end

