-- ==== Sys2Proof/Laws/Memory.lean ====
section
/-! SUPPORT. The laws of memories and RAMs: what a read returns after a store, and that every operation keeps the
canonical form. -/

namespace Sys2Proof.Laws
open Sys2Proof.Machine

/-! ### Read after write -/

@[simp] theorem lookup_nil (a : Nat) : Memory.lookup [] a = none := rfl

theorem lookup_store (m : Memory) (a : Nat) (b : Byte) (a' : Nat) :
    (m.store a b).lookup a' = if a' = a then some b else m.lookup a' := by
  induction m with
  | nil => rfl
  | cons c m ih =>
    obtain ⟨k, v⟩ := c
    simp only [Memory.store]
    split
    · rfl
    · split
      · subst_vars; simp only [Memory.lookup]; split <;> rfl
      · simp only [Memory.lookup, ih]
        by_cases h : a' = k
        · subst h; simp; omega
        · simp [h]

theorem lookup_storeBytes (m : Memory) (a : Nat) (bs : List Byte) (a' : Nat) :
    (m.storeBytes a bs).lookup a' = if a ≤ a' ∧ a' < a + bs.length then bs[a' - a]? else m.lookup a' := by
  induction bs generalizing m a with
  | nil => simp [Memory.storeBytes]
  | cons b bs ih =>
    simp only [Memory.storeBytes, ih, lookup_store, List.length_cons]
    by_cases h : a' = a
    · subst h; simp
    · by_cases h2 : a + 1 ≤ a' ∧ a' < a + 1 + bs.length
      · rw [if_pos h2, if_pos (by omega), show a' - a = (a' - (a + 1)) + 1 by omega]; rfl
      · rw [if_neg h2, if_neg h, if_neg (by omega)]

theorem lookup_append (m m' : Memory) (a : Nat) :
    Memory.lookup (m ++ m') a = (m.lookup a).or (m'.lookup a) := by
  induction m with
  | nil => rfl
  | cons c m ih =>
    obtain ⟨k, v⟩ := c
    simp only [List.cons_append, Memory.lookup, ih]
    split <;> rfl

theorem lookup_filter_ge (m : Memory) (n a : Nat) (h : n ≤ a) :
    Memory.lookup (m.filter fun c => decide (n ≤ c.1)) a = m.lookup a := by
  induction m with
  | nil => rfl
  | cons c m ih =>
    obtain ⟨k, v⟩ := c
    by_cases hk : n ≤ k
    · simp [hk, Memory.lookup, ih]
    · have : a ≠ k := by omega
      simp [hk, Memory.lookup, ih, this]

theorem lookup_enumerated (bs : List Byte) (n a : Nat) :
    Memory.lookup ((bs.zipIdx n).map fun p => (p.2, p.1)) a = if n ≤ a then bs[a - n]? else none := by
  induction bs generalizing n with
  | nil => simp
  | cons b bs ih =>
    simp only [List.zipIdx_cons, List.map_cons, Memory.lookup, ih]
    by_cases h : a = n
    · subst h; simp
    · by_cases h2 : n + 1 ≤ a
      · rw [if_neg h, if_pos h2, if_pos (by omega), show a - n = (a - (n + 1)) + 1 by omega]; rfl
      · rw [if_neg h, if_neg h2, if_neg (by omega)]

theorem lookup_storePrefix (m : Memory) (bs : List Byte) (a : Nat) :
    (m.storePrefix bs).lookup a = if a < bs.length then bs[a]? else m.lookup a := by
  rw [Memory.storePrefix, lookup_append, lookup_enumerated]
  simp only [Nat.zero_le, if_true, Nat.sub_zero]
  by_cases h : a < bs.length
  · simp [h]
  · simp only [h, if_false, List.getElem?_eq_none (Nat.le_of_not_lt h), Option.none_or]
    exact lookup_filter_ge m bs.length a (Nat.le_of_not_lt h)

theorem Ram_read_storeBytes (r : Ram) (a : Nat) (bs : List Byte) (a' : Nat) :
    (r.storeBytes a bs).read a' = if a ≤ a' ∧ a' < a + bs.length then (bs[a' - a]?).getD 0 else r.read a' := by
  simp only [Ram.read, Ram.storeBytes, lookup_storeBytes]
  split
  · rw [List.getElem?_eq_getElem (by omega)]; rfl
  · rfl

theorem Ram_read_storePrefix (r : Ram) (bs : List Byte) (a : Nat) :
    (r.storePrefix bs).read a = if a < bs.length then (bs[a]?).getD 0 else r.read a := by
  simp only [Ram.read, Ram.storePrefix, lookup_storePrefix]
  split
  · rw [List.getElem?_eq_getElem (by assumption)]; rfl
  · rfl

@[simp] theorem Ram_read_unspecified (n a : Nat) : (Ram.unspecified n).read a = Config.freeByte n a := rfl

@[simp] theorem Ram_drawNo_storeBytes (r : Ram) (a : Nat) (bs : List Byte) :
    (r.storeBytes a bs).drawNo = r.drawNo := rfl

@[simp] theorem Ram_drawNo_storePrefix (r : Ram) (bs : List Byte) : (r.storePrefix bs).drawNo = r.drawNo := rfl

/-- A word read where a word's bytes were just stored. -/
theorem Ram_readWord_storeBytes_same (r : Ram) (a : Nat) (v : Word) : (r.storeBytes a (le32 v)).readWord a = v := by
  simp [Ram.readWord, Ram_read_storeBytes, le32, wordOfBytes_le32]

/-- A word read clear of the stored bytes. -/
theorem Ram_readWord_storeBytes_other (r : Ram) (a : Nat) (bs : List Byte) (a' : Nat)
    (h : a' + 4 ≤ a ∨ a + bs.length ≤ a') : (r.storeBytes a bs).readWord a' = r.readWord a' := by
  simp only [Ram.readWord, Ram_read_storeBytes]
  rw [if_neg (by omega), if_neg (by omega), if_neg (by omega), if_neg (by omega)]

/-! ### Canonical form -/

theorem mem_store (m : Memory) (a : Nat) (b : Byte) (c : Host.Cell) (h : c ∈ m.store a b) : c = (a, b) ∨ c ∈ m := by
  induction m with
  | nil => simpa [Memory.store] using h
  | cons d m ih =>
    obtain ⟨k, v⟩ := d
    simp only [Memory.store] at h
    split at h
    · simpa using h
    · split at h
      · simp only [List.mem_cons] at h ⊢; tauto
      · simp only [List.mem_cons] at h ⊢
        rcases h with h | h
        · exact .inr (.inl h)
        · have := ih h; tauto

theorem wf_store (m : Memory) (a : Nat) (b : Byte) (h : Memory.wf m) : Memory.wf (m.store a b) := by
  induction m with
  | nil => simp [Memory.store]
  | cons c m ih =>
    obtain ⟨k, v⟩ := c
    simp only [Memory.wf, List.pairwise_cons] at h
    simp only [Memory.store]
    split
    · next hlt =>
      simp only [Memory.wf, List.pairwise_cons]
      refine ⟨fun c hc => ?_, h⟩
      rcases List.mem_cons.1 hc with rfl | hc
      · exact hlt
      · exact hlt.trans (h.1 c hc)
    · split
      · next heq => subst heq; simpa only [Memory.wf, List.pairwise_cons] using h
      · next hlt hne =>
        simp only [Memory.wf, List.pairwise_cons]
        refine ⟨fun c hc => ?_, ih h.2⟩
        rcases mem_store m a b c hc with rfl | hc
        · show k < a; omega
        · exact h.1 c hc

theorem wf_storeBytes (m : Memory) (a : Nat) (bs : List Byte) (h : Memory.wf m) : Memory.wf (m.storeBytes a bs) := by
  induction bs generalizing m a with
  | nil => exact h
  | cons b bs ih => exact ih _ _ (wf_store m a b h)

theorem mem_storeBytes (m : Memory) (a : Nat) (bs : List Byte) (c : Host.Cell) (h : c ∈ m.storeBytes a bs) :
    c ∈ m ∨ c.1 < a + bs.length := by
  induction bs generalizing m a with
  | nil => exact .inl h
  | cons b bs ih =>
    rcases ih _ _ h with h | h
    · rcases mem_store m a b c h with rfl | h
      · right; simp
      · exact .inl h
    · right; simp only [List.length_cons]; omega

theorem mem_enumerated (bs : List Byte) (c : Host.Cell) (h : c ∈ bs.zipIdx.map fun p => (p.2, p.1)) :
    c.1 < bs.length := by
  obtain ⟨p, hp, rfl⟩ := List.mem_map.1 h
  have := List.mem_zipIdx hp
  omega

theorem wf_enumerated (bs : List Byte) (n : Nat) : Memory.wf ((bs.zipIdx n).map fun p => (p.2, p.1)) := by
  induction bs generalizing n with
  | nil => simp
  | cons b bs ih =>
    simp only [List.zipIdx_cons, List.map_cons, Memory.wf, List.pairwise_cons]
    refine ⟨fun c hc => ?_, ih (n + 1)⟩
    obtain ⟨p, hp, rfl⟩ := List.mem_map.1 hc
    have := List.mem_zipIdx hp
    show n < p.2
    omega

theorem wf_storePrefix (m : Memory) (bs : List Byte) (h : Memory.wf m) : Memory.wf (m.storePrefix bs) := by
  refine List.pairwise_append.2 ⟨wf_enumerated bs 0, h.filter _, fun x hx y hy => ?_⟩
  have hx := mem_enumerated bs x hx
  simp only [List.mem_filter, decide_eq_true_eq] at hy
  omega

theorem mem_storePrefix (m : Memory) (bs : List Byte) (c : Host.Cell) (h : c ∈ m.storePrefix bs) :
    c ∈ m ∨ c.1 < bs.length := by
  rcases List.mem_append.1 h with h | h
  · exact .inr (mem_enumerated bs c h)
  · exact .inl (List.mem_filter.1 h).1

/-- Storing inside a RAM of `size` bytes keeps its canonical form. -/
theorem Ram_wf_storeBytes (size : Nat) (r : Ram) (a : Nat) (bs : List Byte) (h : r.wf size)
    (hb : a + bs.length ≤ size) : (r.storeBytes a bs).wf size := by
  refine ⟨wf_storeBytes _ _ _ h.1, fun c hc => ?_⟩
  rcases mem_storeBytes _ _ _ c hc with hc | hc
  · exact h.2 c hc
  · omega

/-- Storing a prefix of a RAM of `size` bytes keeps its canonical form. -/
theorem Ram_wf_storePrefix (size : Nat) (r : Ram) (bs : List Byte) (h : r.wf size) (hb : bs.length ≤ size) :
    (r.storePrefix bs).wf size := by
  refine ⟨wf_storePrefix _ _ h.1, fun c hc => ?_⟩
  rcases mem_storePrefix _ _ c hc with hc | hc
  · exact h.2 c hc
  · omega

theorem Ram_wf_unspecified (size n : Nat) : (Ram.unspecified n).wf size := by
  simp [Ram.unspecified, Ram.wf, Memory.wf]

theorem lookup_eq_none_of_lt (m : Memory) (a : Nat) (h : ∀ c ∈ m, a < c.1) : m.lookup a = none := by
  induction m with
  | nil => rfl
  | cons c m ih =>
    have h1 : a < c.1 := h c List.mem_cons_self
    rw [Memory.lookup, if_neg (by omega)]
    exact ih fun d hd => h d (List.mem_cons_of_mem _ hd)

/-- Two canonical memories with the same byte at every address are the same list. -/
theorem Memory_eq_of_lookup (m m' : Memory) (h : Memory.wf m) (h' : Memory.wf m')
    (hl : ∀ a, m.lookup a = m'.lookup a) : m = m' := by
  induction m generalizing m' with
  | nil =>
    cases m' with
    | nil => rfl
    | cons c m' => simpa [Memory.lookup] using hl c.1
  | cons c m ih =>
    obtain ⟨k, v⟩ := c
    cases m' with
    | nil => simpa [Memory.lookup] using hl k
    | cons c' m' =>
      obtain ⟨k', v'⟩ := c'
      simp only [Memory.wf, List.pairwise_cons] at h h'
      have hk := hl k
      have hk' := hl k'
      have kk : k = k' := by
        rcases Nat.lt_trichotomy k k' with hlt | heq | hgt
        · rw [Memory.lookup, if_pos rfl, Memory.lookup, if_neg (by omega),
            lookup_eq_none_of_lt m' k fun d hd => hlt.trans (h'.1 d hd)] at hk
          simp at hk
        · exact heq
        · rw [Memory.lookup, if_neg (by omega), lookup_eq_none_of_lt m k' fun d hd => hgt.trans (h.1 d hd),
            Memory.lookup, if_pos rfl] at hk'
          simp at hk'
      subst kk
      simp only [Memory.lookup, if_true, Option.some.injEq] at hk
      subst hk
      congr 1
      refine ih m' h.2 h'.2 fun a => ?_
      have ha := hl a
      simp only [Memory.lookup] at ha
      split at ha
      · next hak =>
        subst hak
        rw [lookup_eq_none_of_lt m a h.1, lookup_eq_none_of_lt m' a h'.1]
      · exact ha

end Sys2Proof.Laws
end

