-- ==== Sys2Proof/Laws/State.lean ====
section
/-! SUPPORT. One lemma per field for each named update of the state, so that no proof unfolds a record update. -/

namespace Sys2Proof.Laws
open Sys2Proof.Machine

@[simp] theorem flagHazard_pend (s : State) : (flagHazard s).pend = s.pend := rfl
@[simp] theorem flagHazard_done (s : State) : (flagHazard s).done = s.done := rfl
@[simp] theorem flagHazard_err (s : State) : (flagHazard s).err = s.err := rfl
@[simp] theorem flagHazard_errcode (s : State) : (flagHazard s).errcode = s.errcode := rfl
@[simp] theorem flagHazard_gridValid (s : State) : (flagHazard s).gridValid = s.gridValid := rfl
@[simp] theorem flagHazard_outValid (s : State) : (flagHazard s).outValid = s.outValid := rfl
@[simp] theorem flagHazard_haz (s : State) : (flagHazard s).haz = true := rfl
@[simp] theorem flagHazard_inLen (s : State) : (flagHazard s).inLen = s.inLen := rfl
@[simp] theorem flagHazard_width (s : State) : (flagHazard s).width = s.width := rfl
@[simp] theorem flagHazard_height (s : State) : (flagHazard s).height = s.height := rfl
@[simp] theorem flagHazard_outLen (s : State) : (flagHazard s).outLen = s.outLen := rfl
@[simp] theorem flagHazard_outCap (s : State) : (flagHazard s).outCap = s.outCap := rfl
@[simp] theorem flagHazard_tile (s : State) : (flagHazard s).tile = s.tile := rfl
@[simp] theorem flagHazard_fb (s : State) : (flagHazard s).fb = s.fb := rfl
@[simp] theorem flagHazard_out (s : State) : (flagHazard s).out = s.out := rfl
@[simp] theorem flagHazard_draws (s : State) : (flagHazard s).draws = s.draws := rfl
@[simp] theorem flagHazard_inputs (s : State) : (flagHazard s).inputs = s.inputs := rfl
@[simp] theorem flagHazard_answers (s : State) : (flagHazard s).answers = s.answers := rfl

@[simp] theorem answer_pend (v : Word) (s : State) : (answer v s).pend = s.pend := rfl
@[simp] theorem answer_done (v : Word) (s : State) : (answer v s).done = s.done := rfl
@[simp] theorem answer_err (v : Word) (s : State) : (answer v s).err = s.err := rfl
@[simp] theorem answer_errcode (v : Word) (s : State) : (answer v s).errcode = s.errcode := rfl
@[simp] theorem answer_gridValid (v : Word) (s : State) : (answer v s).gridValid = s.gridValid := rfl
@[simp] theorem answer_outValid (v : Word) (s : State) : (answer v s).outValid = s.outValid := rfl
@[simp] theorem answer_haz (v : Word) (s : State) : (answer v s).haz = s.haz := rfl
@[simp] theorem answer_inLen (v : Word) (s : State) : (answer v s).inLen = s.inLen := rfl
@[simp] theorem answer_width (v : Word) (s : State) : (answer v s).width = s.width := rfl
@[simp] theorem answer_height (v : Word) (s : State) : (answer v s).height = s.height := rfl
@[simp] theorem answer_outLen (v : Word) (s : State) : (answer v s).outLen = s.outLen := rfl
@[simp] theorem answer_outCap (v : Word) (s : State) : (answer v s).outCap = s.outCap := rfl
@[simp] theorem answer_tile (v : Word) (s : State) : (answer v s).tile = s.tile := rfl
@[simp] theorem answer_fb (v : Word) (s : State) : (answer v s).fb = s.fb := rfl
@[simp] theorem answer_out (v : Word) (s : State) : (answer v s).out = s.out := rfl
@[simp] theorem answer_draws (v : Word) (s : State) : (answer v s).draws = s.draws := rfl
@[simp] theorem answer_inputs (v : Word) (s : State) : (answer v s).inputs = s.inputs := rfl
@[simp] theorem answer_answers (v : Word) (s : State) : (answer v s).answers = v :: s.answers := rfl

@[simp] theorem setInLen_pend (v : Word) (s : State) : (setInLen v s).pend = s.pend := rfl
@[simp] theorem setInLen_done (v : Word) (s : State) : (setInLen v s).done = s.done := rfl
@[simp] theorem setInLen_err (v : Word) (s : State) : (setInLen v s).err = s.err := rfl
@[simp] theorem setInLen_errcode (v : Word) (s : State) : (setInLen v s).errcode = s.errcode := rfl
@[simp] theorem setInLen_gridValid (v : Word) (s : State) : (setInLen v s).gridValid = s.gridValid := rfl
@[simp] theorem setInLen_outValid (v : Word) (s : State) : (setInLen v s).outValid = s.outValid := rfl
@[simp] theorem setInLen_haz (v : Word) (s : State) : (setInLen v s).haz = s.haz := rfl
@[simp] theorem setInLen_inLen (v : Word) (s : State) : (setInLen v s).inLen = v := rfl
@[simp] theorem setInLen_width (v : Word) (s : State) : (setInLen v s).width = s.width := rfl
@[simp] theorem setInLen_height (v : Word) (s : State) : (setInLen v s).height = s.height := rfl
@[simp] theorem setInLen_outLen (v : Word) (s : State) : (setInLen v s).outLen = s.outLen := rfl
@[simp] theorem setInLen_outCap (v : Word) (s : State) : (setInLen v s).outCap = s.outCap := rfl
@[simp] theorem setInLen_tile (v : Word) (s : State) : (setInLen v s).tile = s.tile := rfl
@[simp] theorem setInLen_fb (v : Word) (s : State) : (setInLen v s).fb = s.fb := rfl
@[simp] theorem setInLen_out (v : Word) (s : State) : (setInLen v s).out = s.out := rfl
@[simp] theorem setInLen_draws (v : Word) (s : State) : (setInLen v s).draws = s.draws := rfl
@[simp] theorem setInLen_inputs (v : Word) (s : State) : (setInLen v s).inputs = s.inputs := rfl
@[simp] theorem setInLen_answers (v : Word) (s : State) : (setInLen v s).answers = s.answers := rfl

@[simp] theorem storeTile_pend (o : Nat) (bs : List Byte) (s : State) : (storeTile o bs s).pend = s.pend := rfl
@[simp] theorem storeTile_done (o : Nat) (bs : List Byte) (s : State) : (storeTile o bs s).done = s.done := rfl
@[simp] theorem storeTile_err (o : Nat) (bs : List Byte) (s : State) : (storeTile o bs s).err = s.err := rfl
@[simp] theorem storeTile_errcode (o : Nat) (bs : List Byte) (s : State) :
    (storeTile o bs s).errcode = s.errcode := rfl
@[simp] theorem storeTile_gridValid (o : Nat) (bs : List Byte) (s : State) :
    (storeTile o bs s).gridValid = s.gridValid := rfl
@[simp] theorem storeTile_outValid (o : Nat) (bs : List Byte) (s : State) :
    (storeTile o bs s).outValid = s.outValid := rfl
@[simp] theorem storeTile_haz (o : Nat) (bs : List Byte) (s : State) : (storeTile o bs s).haz = s.haz := rfl
@[simp] theorem storeTile_inLen (o : Nat) (bs : List Byte) (s : State) : (storeTile o bs s).inLen = s.inLen := rfl
@[simp] theorem storeTile_width (o : Nat) (bs : List Byte) (s : State) : (storeTile o bs s).width = s.width := rfl
@[simp] theorem storeTile_height (o : Nat) (bs : List Byte) (s : State) : (storeTile o bs s).height = s.height := rfl
@[simp] theorem storeTile_outLen (o : Nat) (bs : List Byte) (s : State) : (storeTile o bs s).outLen = s.outLen := rfl
@[simp] theorem storeTile_outCap (o : Nat) (bs : List Byte) (s : State) : (storeTile o bs s).outCap = s.outCap := rfl
@[simp] theorem storeTile_tile (o : Nat) (bs : List Byte) (s : State) :
    (storeTile o bs s).tile = s.tile.storeBytes o bs := rfl
@[simp] theorem storeTile_fb (o : Nat) (bs : List Byte) (s : State) : (storeTile o bs s).fb = s.fb := rfl
@[simp] theorem storeTile_out (o : Nat) (bs : List Byte) (s : State) : (storeTile o bs s).out = s.out := rfl
@[simp] theorem storeTile_draws (o : Nat) (bs : List Byte) (s : State) : (storeTile o bs s).draws = s.draws := rfl
@[simp] theorem storeTile_inputs (o : Nat) (bs : List Byte) (s : State) : (storeTile o bs s).inputs = s.inputs := rfl
@[simp] theorem storeTile_answers (o : Nat) (bs : List Byte) (s : State) :
    (storeTile o bs s).answers = s.answers := rfl

@[simp] theorem violatingRead_pend (s : State) : (violatingRead s).pend = s.pend := rfl
@[simp] theorem violatingRead_done (s : State) : (violatingRead s).done = s.done := rfl
@[simp] theorem violatingRead_err (s : State) : (violatingRead s).err = s.err := rfl
@[simp] theorem violatingRead_errcode (s : State) : (violatingRead s).errcode = s.errcode := rfl
@[simp] theorem violatingRead_gridValid (s : State) : (violatingRead s).gridValid = s.gridValid := rfl
@[simp] theorem violatingRead_outValid (s : State) : (violatingRead s).outValid = s.outValid := rfl
@[simp] theorem violatingRead_haz (s : State) : (violatingRead s).haz = true := rfl
@[simp] theorem violatingRead_inLen (s : State) : (violatingRead s).inLen = s.inLen := rfl
@[simp] theorem violatingRead_width (s : State) : (violatingRead s).width = s.width := rfl
@[simp] theorem violatingRead_height (s : State) : (violatingRead s).height = s.height := rfl
@[simp] theorem violatingRead_outLen (s : State) : (violatingRead s).outLen = s.outLen := rfl
@[simp] theorem violatingRead_outCap (s : State) : (violatingRead s).outCap = s.outCap := rfl
@[simp] theorem violatingRead_tile (s : State) : (violatingRead s).tile = s.tile := rfl
@[simp] theorem violatingRead_fb (s : State) : (violatingRead s).fb = s.fb := rfl
@[simp] theorem violatingRead_out (s : State) : (violatingRead s).out = s.out := rfl
@[simp] theorem violatingRead_draws (s : State) : (violatingRead s).draws = s.draws := rfl
@[simp] theorem violatingRead_inputs (s : State) : (violatingRead s).inputs = s.inputs := rfl
@[simp] theorem violatingRead_answers (s : State) : (violatingRead s).answers = 0 :: s.answers := rfl

@[simp] theorem answerDraw_pend (w : Width) (s : State) : (answerDraw w s).pend = s.pend := rfl
@[simp] theorem answerDraw_done (w : Width) (s : State) : (answerDraw w s).done = s.done := rfl
@[simp] theorem answerDraw_err (w : Width) (s : State) : (answerDraw w s).err = s.err := rfl
@[simp] theorem answerDraw_errcode (w : Width) (s : State) : (answerDraw w s).errcode = s.errcode := rfl
@[simp] theorem answerDraw_gridValid (w : Width) (s : State) : (answerDraw w s).gridValid = s.gridValid := rfl
@[simp] theorem answerDraw_outValid (w : Width) (s : State) : (answerDraw w s).outValid = s.outValid := rfl
@[simp] theorem answerDraw_haz (w : Width) (s : State) : (answerDraw w s).haz = s.haz := rfl
@[simp] theorem answerDraw_inLen (w : Width) (s : State) : (answerDraw w s).inLen = s.inLen := rfl
@[simp] theorem answerDraw_width (w : Width) (s : State) : (answerDraw w s).width = s.width := rfl
@[simp] theorem answerDraw_height (w : Width) (s : State) : (answerDraw w s).height = s.height := rfl
@[simp] theorem answerDraw_outLen (w : Width) (s : State) : (answerDraw w s).outLen = s.outLen := rfl
@[simp] theorem answerDraw_outCap (w : Width) (s : State) : (answerDraw w s).outCap = s.outCap := rfl
@[simp] theorem answerDraw_tile (w : Width) (s : State) : (answerDraw w s).tile = s.tile := rfl
@[simp] theorem answerDraw_fb (w : Width) (s : State) : (answerDraw w s).fb = s.fb := rfl
@[simp] theorem answerDraw_out (w : Width) (s : State) : (answerDraw w s).out = s.out := rfl
@[simp] theorem answerDraw_draws (w : Width) (s : State) : (answerDraw w s).draws = s.draws + 1 := rfl
@[simp] theorem answerDraw_inputs (w : Width) (s : State) : (answerDraw w s).inputs = s.inputs := rfl
@[simp] theorem answerDraw_answers (w : Width) (s : State) :
    (answerDraw w s).answers = drawValue w s :: s.answers := rfl

@[simp] theorem accept_pend (op : Op) (s : State) : (accept op s).pend = some { op := op, len := s.inLen } := rfl
@[simp] theorem accept_done (op : Op) (s : State) : (accept op s).done = false := rfl
@[simp] theorem accept_err (op : Op) (s : State) : (accept op s).err = false := rfl
@[simp] theorem accept_errcode (op : Op) (s : State) : (accept op s).errcode = 0 := rfl
@[simp] theorem accept_gridValid (op : Op) (s : State) :
    (accept op s).gridValid = if op.writesFb then false else s.gridValid := rfl
@[simp] theorem accept_outValid (op : Op) (s : State) : (accept op s).outValid = false := rfl
@[simp] theorem accept_haz (op : Op) (s : State) : (accept op s).haz = s.haz := rfl
@[simp] theorem accept_inLen (op : Op) (s : State) : (accept op s).inLen = s.inLen := rfl
@[simp] theorem accept_width (op : Op) (s : State) : (accept op s).width = if op.writesFb then 0 else s.width := rfl
@[simp] theorem accept_height (op : Op) (s : State) :
    (accept op s).height = if op.writesFb then 0 else s.height := rfl
@[simp] theorem accept_outLen (op : Op) (s : State) : (accept op s).outLen = 0 := rfl
@[simp] theorem accept_outCap (op : Op) (s : State) : (accept op s).outCap = s.outCap := rfl
@[simp] theorem accept_tile (op : Op) (s : State) : (accept op s).tile = s.tile := rfl
@[simp] theorem accept_fb (op : Op) (s : State) : (accept op s).fb = s.fb := rfl
@[simp] theorem accept_out (op : Op) (s : State) : (accept op s).out = s.out := rfl
@[simp] theorem accept_draws (op : Op) (s : State) : (accept op s).draws = s.draws := rfl
@[simp] theorem accept_inputs (op : Op) (s : State) : (accept op s).inputs = s.inputs := rfl
@[simp] theorem accept_answers (op : Op) (s : State) : (accept op s).answers = s.answers := rfl

@[simp] theorem completeOk_pend (s : State) : (completeOk s).pend = none := rfl
@[simp] theorem completeOk_done (s : State) : (completeOk s).done = true := rfl
@[simp] theorem completeOk_err (s : State) : (completeOk s).err = s.err := rfl
@[simp] theorem completeOk_errcode (s : State) : (completeOk s).errcode = s.errcode := rfl
@[simp] theorem completeOk_gridValid (s : State) : (completeOk s).gridValid = s.gridValid := rfl
@[simp] theorem completeOk_outValid (s : State) : (completeOk s).outValid = s.outValid := rfl
@[simp] theorem completeOk_haz (s : State) : (completeOk s).haz = s.haz := rfl
@[simp] theorem completeOk_inLen (s : State) : (completeOk s).inLen = s.inLen := rfl
@[simp] theorem completeOk_width (s : State) : (completeOk s).width = s.width := rfl
@[simp] theorem completeOk_height (s : State) : (completeOk s).height = s.height := rfl
@[simp] theorem completeOk_outLen (s : State) : (completeOk s).outLen = s.outLen := rfl
@[simp] theorem completeOk_outCap (s : State) : (completeOk s).outCap = s.outCap := rfl
@[simp] theorem completeOk_tile (s : State) : (completeOk s).tile = s.tile := rfl
@[simp] theorem completeOk_fb (s : State) : (completeOk s).fb = s.fb := rfl
@[simp] theorem completeOk_out (s : State) : (completeOk s).out = s.out := rfl
@[simp] theorem completeOk_draws (s : State) : (completeOk s).draws = s.draws := rfl
@[simp] theorem completeOk_inputs (s : State) : (completeOk s).inputs = s.inputs := rfl
@[simp] theorem completeOk_answers (s : State) : (completeOk s).answers = s.answers := rfl

@[simp] theorem raiseError_pend (e : ErrorCode) (s : State) : (raiseError e s).pend = none := rfl
@[simp] theorem raiseError_done (e : ErrorCode) (s : State) : (raiseError e s).done = s.done := rfl
@[simp] theorem raiseError_err (e : ErrorCode) (s : State) : (raiseError e s).err = true := rfl
@[simp] theorem raiseError_errcode (e : ErrorCode) (s : State) : (raiseError e s).errcode = e.code := rfl
@[simp] theorem raiseError_gridValid (e : ErrorCode) (s : State) : (raiseError e s).gridValid = s.gridValid := rfl
@[simp] theorem raiseError_outValid (e : ErrorCode) (s : State) : (raiseError e s).outValid = s.outValid := rfl
@[simp] theorem raiseError_haz (e : ErrorCode) (s : State) : (raiseError e s).haz = s.haz := rfl
@[simp] theorem raiseError_inLen (e : ErrorCode) (s : State) : (raiseError e s).inLen = s.inLen := rfl
@[simp] theorem raiseError_width (e : ErrorCode) (s : State) : (raiseError e s).width = s.width := rfl
@[simp] theorem raiseError_height (e : ErrorCode) (s : State) : (raiseError e s).height = s.height := rfl
@[simp] theorem raiseError_outLen (e : ErrorCode) (s : State) : (raiseError e s).outLen = s.outLen := rfl
@[simp] theorem raiseError_outCap (e : ErrorCode) (s : State) : (raiseError e s).outCap = s.outCap := rfl
@[simp] theorem raiseError_tile (e : ErrorCode) (s : State) : (raiseError e s).tile = s.tile := rfl
@[simp] theorem raiseError_fb (e : ErrorCode) (s : State) : (raiseError e s).fb = s.fb := rfl
@[simp] theorem raiseError_out (e : ErrorCode) (s : State) : (raiseError e s).out = s.out := rfl
@[simp] theorem raiseError_draws (e : ErrorCode) (s : State) : (raiseError e s).draws = s.draws := rfl
@[simp] theorem raiseError_inputs (e : ErrorCode) (s : State) : (raiseError e s).inputs = s.inputs := rfl
@[simp] theorem raiseError_answers (e : ErrorCode) (s : State) : (raiseError e s).answers = s.answers := rfl

@[simp] theorem illegalCmd_pend (s : State) : (illegalCmd s).pend = s.pend := rfl
@[simp] theorem illegalCmd_done (s : State) : (illegalCmd s).done = false := rfl
@[simp] theorem illegalCmd_err (s : State) : (illegalCmd s).err = true := rfl
@[simp] theorem illegalCmd_errcode (s : State) : (illegalCmd s).errcode = 6 := rfl
@[simp] theorem illegalCmd_gridValid (s : State) : (illegalCmd s).gridValid = s.gridValid := rfl
@[simp] theorem illegalCmd_outValid (s : State) : (illegalCmd s).outValid = s.outValid := rfl
@[simp] theorem illegalCmd_haz (s : State) : (illegalCmd s).haz = s.haz := rfl
@[simp] theorem illegalCmd_inLen (s : State) : (illegalCmd s).inLen = s.inLen := rfl
@[simp] theorem illegalCmd_width (s : State) : (illegalCmd s).width = s.width := rfl
@[simp] theorem illegalCmd_height (s : State) : (illegalCmd s).height = s.height := rfl
@[simp] theorem illegalCmd_outLen (s : State) : (illegalCmd s).outLen = s.outLen := rfl
@[simp] theorem illegalCmd_outCap (s : State) : (illegalCmd s).outCap = s.outCap := rfl
@[simp] theorem illegalCmd_tile (s : State) : (illegalCmd s).tile = s.tile := rfl
@[simp] theorem illegalCmd_fb (s : State) : (illegalCmd s).fb = s.fb := rfl
@[simp] theorem illegalCmd_out (s : State) : (illegalCmd s).out = s.out := rfl
@[simp] theorem illegalCmd_draws (s : State) : (illegalCmd s).draws = s.draws := rfl
@[simp] theorem illegalCmd_inputs (s : State) : (illegalCmd s).inputs = s.inputs := rfl
@[simp] theorem illegalCmd_answers (s : State) : (illegalCmd s).answers = s.answers := rfl

@[simp] theorem acknowledge_pend (w : Word) (s : State) : (acknowledge w s).pend = s.pend := rfl
@[simp] theorem acknowledge_done (w : Word) (s : State) :
    (acknowledge w s).done = if w.getLsbD 1 then false else s.done := rfl
@[simp] theorem acknowledge_err (w : Word) (s : State) :
    (acknowledge w s).err = if w.getLsbD 2 then false else s.err := rfl
@[simp] theorem acknowledge_errcode (w : Word) (s : State) :
    (acknowledge w s).errcode = if w.getLsbD 2 then 0 else s.errcode := rfl
@[simp] theorem acknowledge_gridValid (w : Word) (s : State) : (acknowledge w s).gridValid = s.gridValid := rfl
@[simp] theorem acknowledge_outValid (w : Word) (s : State) : (acknowledge w s).outValid = s.outValid := rfl
@[simp] theorem acknowledge_haz (w : Word) (s : State) :
    (acknowledge w s).haz = if w.getLsbD 10 then false else s.haz := rfl
@[simp] theorem acknowledge_inLen (w : Word) (s : State) : (acknowledge w s).inLen = s.inLen := rfl
@[simp] theorem acknowledge_width (w : Word) (s : State) : (acknowledge w s).width = s.width := rfl
@[simp] theorem acknowledge_height (w : Word) (s : State) : (acknowledge w s).height = s.height := rfl
@[simp] theorem acknowledge_outLen (w : Word) (s : State) : (acknowledge w s).outLen = s.outLen := rfl
@[simp] theorem acknowledge_outCap (w : Word) (s : State) : (acknowledge w s).outCap = s.outCap := rfl
@[simp] theorem acknowledge_tile (w : Word) (s : State) : (acknowledge w s).tile = s.tile := rfl
@[simp] theorem acknowledge_fb (w : Word) (s : State) : (acknowledge w s).fb = s.fb := rfl
@[simp] theorem acknowledge_out (w : Word) (s : State) : (acknowledge w s).out = s.out := rfl
@[simp] theorem acknowledge_draws (w : Word) (s : State) : (acknowledge w s).draws = s.draws := rfl
@[simp] theorem acknowledge_inputs (w : Word) (s : State) : (acknowledge w s).inputs = s.inputs := rfl
@[simp] theorem acknowledge_answers (w : Word) (s : State) : (acknowledge w s).answers = s.answers := rfl

@[simp] theorem storeGrid_pend (side : Nat) (s : State) : (storeGrid side s).pend = s.pend := rfl
@[simp] theorem storeGrid_done (side : Nat) (s : State) : (storeGrid side s).done = s.done := rfl
@[simp] theorem storeGrid_err (side : Nat) (s : State) : (storeGrid side s).err = s.err := rfl
@[simp] theorem storeGrid_errcode (side : Nat) (s : State) : (storeGrid side s).errcode = s.errcode := rfl
@[simp] theorem storeGrid_gridValid (side : Nat) (s : State) : (storeGrid side s).gridValid = true := rfl
@[simp] theorem storeGrid_outValid (side : Nat) (s : State) : (storeGrid side s).outValid = s.outValid := rfl
@[simp] theorem storeGrid_haz (side : Nat) (s : State) : (storeGrid side s).haz = s.haz := rfl
@[simp] theorem storeGrid_inLen (side : Nat) (s : State) : (storeGrid side s).inLen = s.inLen := rfl
@[simp] theorem storeGrid_width (side : Nat) (s : State) :
    (storeGrid side s).width = BitVec.ofNat 32 (gridPixels side) := rfl
@[simp] theorem storeGrid_height (side : Nat) (s : State) :
    (storeGrid side s).height = BitVec.ofNat 32 (gridPixels side) := rfl
@[simp] theorem storeGrid_outLen (side : Nat) (s : State) : (storeGrid side s).outLen = s.outLen := rfl
@[simp] theorem storeGrid_outCap (side : Nat) (s : State) : (storeGrid side s).outCap = s.outCap := rfl
@[simp] theorem storeGrid_tile (side : Nat) (s : State) : (storeGrid side s).tile = s.tile := rfl
@[simp] theorem storeGrid_fb (side : Nat) (s : State) :
    (storeGrid side s).fb = s.fb.storePrefix ((gridWords s.tile side).flatMap le32) := rfl
@[simp] theorem storeGrid_out (side : Nat) (s : State) : (storeGrid side s).out = s.out := rfl
@[simp] theorem storeGrid_draws (side : Nat) (s : State) : (storeGrid side s).draws = s.draws := rfl
@[simp] theorem storeGrid_inputs (side : Nat) (s : State) : (storeGrid side s).inputs = s.inputs := rfl
@[simp] theorem storeGrid_answers (side : Nat) (s : State) : (storeGrid side s).answers = s.answers := rfl

@[simp] theorem storeFile_pend (s : State) : (storeFile s).pend = s.pend := rfl
@[simp] theorem storeFile_done (s : State) : (storeFile s).done = s.done := rfl
@[simp] theorem storeFile_err (s : State) : (storeFile s).err = s.err := rfl
@[simp] theorem storeFile_errcode (s : State) : (storeFile s).errcode = s.errcode := rfl
@[simp] theorem storeFile_gridValid (s : State) : (storeFile s).gridValid = s.gridValid := rfl
@[simp] theorem storeFile_outValid (s : State) : (storeFile s).outValid = true := rfl
@[simp] theorem storeFile_haz (s : State) : (storeFile s).haz = s.haz := rfl
@[simp] theorem storeFile_inLen (s : State) : (storeFile s).inLen = s.inLen := rfl
@[simp] theorem storeFile_width (s : State) : (storeFile s).width = s.width := rfl
@[simp] theorem storeFile_height (s : State) : (storeFile s).height = s.height := rfl
@[simp] theorem storeFile_outLen (s : State) : (storeFile s).outLen = BitVec.ofNat 32 s.fileSize := rfl
@[simp] theorem storeFile_outCap (s : State) : (storeFile s).outCap = s.outCap := rfl
@[simp] theorem storeFile_tile (s : State) : (storeFile s).tile = s.tile := rfl
@[simp] theorem storeFile_fb (s : State) : (storeFile s).fb = s.fb := rfl
@[simp] theorem storeFile_out (s : State) :
    (storeFile s).out = s.out.storePrefix (fileImage s.fb s.width.toNat s.height.toNat) := rfl
@[simp] theorem storeFile_draws (s : State) : (storeFile s).draws = s.draws := rfl
@[simp] theorem storeFile_inputs (s : State) : (storeFile s).inputs = s.inputs := rfl
@[simp] theorem storeFile_answers (s : State) : (storeFile s).answers = s.answers := rfl

@[simp] theorem resetStep_pend (s : State) : (resetStep s).pend = none := rfl
@[simp] theorem resetStep_done (s : State) : (resetStep s).done = false := rfl
@[simp] theorem resetStep_err (s : State) : (resetStep s).err = false := rfl
@[simp] theorem resetStep_errcode (s : State) : (resetStep s).errcode = 0 := rfl
@[simp] theorem resetStep_gridValid (s : State) : (resetStep s).gridValid = false := rfl
@[simp] theorem resetStep_outValid (s : State) : (resetStep s).outValid = false := rfl
@[simp] theorem resetStep_haz (s : State) : (resetStep s).haz = false := rfl
@[simp] theorem resetStep_inLen (s : State) : (resetStep s).inLen = 0 := rfl
@[simp] theorem resetStep_width (s : State) : (resetStep s).width = 0 := rfl
@[simp] theorem resetStep_height (s : State) : (resetStep s).height = 0 := rfl
@[simp] theorem resetStep_outLen (s : State) : (resetStep s).outLen = 0 := rfl
@[simp] theorem resetStep_outCap (s : State) : (resetStep s).outCap = s.outCap := rfl
@[simp] theorem resetStep_tile (s : State) : (resetStep s).tile = s.tile := rfl
@[simp] theorem resetStep_fb (s : State) :
    (resetStep s).fb = if s.fbInterrupted then Ram.unspecified s.draws else s.fb := rfl
@[simp] theorem resetStep_out (s : State) :
    (resetStep s).out = if s.outInterrupted then Ram.unspecified (s.draws + 1) else s.out := rfl
@[simp] theorem resetStep_draws (s : State) : (resetStep s).draws = s.draws + 2 := rfl
@[simp] theorem resetStep_inputs (s : State) : (resetStep s).inputs = s.inputs := rfl
@[simp] theorem resetStep_answers (s : State) : (resetStep s).answers = s.answers := rfl

/-- STATUS.BUSY is 1 exactly when a command is pending (10_state.md R37). -/
theorem busy_eq_false_iff (s : State) : s.busy = false ↔ s.pend = none := by
  cases h : s.pend <;> simp [State.busy, h]

theorem busy_eq_true_iff (s : State) : s.busy = true ↔ ∃ p, s.pend = some p := by
  cases h : s.pend <;> simp [State.busy, h]

end Sys2Proof.Laws
end

