-- ==== Sys2Proof/Laws/Decoder.lean ====
section
/-! SUPPORT. What the decode phase does: which lengths pass, and the word it leaves in every framebuffer cell. -/

namespace Sys2Proof.Laws
open Sys2Proof.Machine

theorem isqrtUpTo_le (b n : Nat) : isqrtUpTo b n * isqrtUpTo b n ≤ n := by
  induction b with
  | zero => simp [isqrtUpTo]
  | succ b ih => rw [isqrtUpTo]; split <;> assumption

theorem le_isqrtUpTo (b n s : Nat) (hs : s * s ≤ n) (hb : s ≤ b) : s ≤ isqrtUpTo b n := by
  induction b with
  | zero => omega
  | succ b ih =>
    rw [isqrtUpTo]
    split
    · exact hb
    · next h =>
      refine ih (Nat.le_of_lt_succ (lt_of_le_of_ne hb fun he => h ?_))
      subst he; exact hs

/-- The integer square root of a square. -/
theorem isqrt_mul_self (s : Nat) : isqrt (s * s) = s := by
  have h1 : isqrt (s * s) * isqrt (s * s) ≤ s * s := isqrtUpTo_le _ _
  have h2 : s ≤ isqrt (s * s) := le_isqrtUpTo _ _ _ le_rfl (Nat.le_mul_self s)
  exact le_antisymm (Nat.mul_self_le_mul_self_iff.1 h1) h2

/-- S = 16 and G = 256 for the one length that passes (40_decode.md R103). -/
theorem gridTiles_8192 : gridTiles 8192#32 = 256 := by decide

theorem gridSide_8192 : gridSide 8192#32 = 16 := by
  rw [gridSide, gridTiles_8192]; exact isqrt_mul_self 16

@[simp] theorem length_unpackRow (lo hi : Byte) : (unpackRow lo hi).length = 8 := by simp [unpackRow]

theorem getElem?_unpackRow (lo hi : Byte) (k : Nat) (h : k < 8) :
    (unpackRow lo hi)[k]? = some (intensity lo hi (7 - k)) := by simp [unpackRow, h]

@[simp] theorem length_gridSegment (tile : Ram) (side q : Nat) : (gridSegment tile side q).length = 8 := by
  simp [gridSegment]

@[simp] theorem length_gridWords (tile : Ram) (side : Nat) :
    (gridWords tile side).length = 8 * (gridPixels side * side) := by
  rw [gridWords, length_flatMap_blocks _ 8 (length_gridSegment tile side)]; simp

/-- Word `n` of the 16-tile grid is the closed form of 40_decode.md R112. -/
theorem getElem?_gridWords (tile : Ram) (n : Nat) (hn : n < 16384) :
    (gridWords tile 16)[n]? = some (gridCell tile.read n) := by
  rw [gridWords, getElem?_flatMap_range _ 8 (by decide) (length_gridSegment tile 16) _ _
    (by simpa [gridPixels, Config.tilePx] using hn)]
  have e1 : 8 * 16 - n / 8 / 16 - 1 = 127 - n / 128 := by omega
  have e2 : 16 - 1 - n / 8 % 16 = 15 - n % 128 / 8 := by omega
  have e3 : n % 8 = n % 128 % 8 := by omega
  simp only [gridSegment, gridCell, List.getElem?_map, flipRow, gridPixels, reverseColumn, loByte, hiByte,
    Config.tilePx, Config.tileBytes, Config.planeBytes, e1, e2, Nat.mul_comm _ 16]
  rw [getElem?_unpackRow _ _ _ (Nat.mod_lt n (by decide)), e3]
  rfl

/-- The bytes the decode phase stores. -/
theorem length_gridBytes (tile : Ram) : ((gridWords tile 16).flatMap le32).length = 65536 := by
  rw [length_flatMap_blocks _ 4 length_le32]; simp [gridPixels, Config.tilePx]

theorem getElem?_gridBytes (tile : Ram) (a : Nat) (ha : a < 65536) :
    ((gridWords tile 16).flatMap le32)[a]? = some (byteOf (gridCell tile.read (a / 4)) (a % 4)) := by
  rw [getElem?_flatMap_blocks _ 4 (by decide) length_le32, getElem?_gridWords tile _ (by omega)]
  exact getElem?_le32 _ _ (Nat.mod_lt _ (by decide))

/-- Every byte of FB after a successful decode. -/
theorem storeGrid_fb_read (s : State) (a : Nat) :
    (storeGrid 16 s).fb.read a =
      if a < 65536 then byteOf (gridCell s.tile.read (a / 4)) (a % 4) else s.fb.read a := by
  rw [storeGrid_fb, Ram_read_storePrefix, length_gridBytes]
  split
  · rw [getElem?_gridBytes _ _ (by assumption)]; rfl
  · rfl

/-- Every word of FB after a successful decode (40_decode.md R112). -/
theorem storeGrid_fbWord (s : State) (n : Nat) (hn : n < 16384) :
    fbWord (storeGrid 16 s).fb n = gridCell s.tile.read n := by
  have h0 : 4 * n / 4 = n ∧ 4 * n % 4 = 0 := by omega
  have h1 : (4 * n + 1) / 4 = n ∧ (4 * n + 1) % 4 = 1 := by omega
  have h2 : (4 * n + 2) / 4 = n ∧ (4 * n + 2) % 4 = 2 := by omega
  have h3 : (4 * n + 3) / 4 = n ∧ (4 * n + 3) % 4 = 3 := by omega
  simp only [fbWord, Ram.readWord, storeGrid_fb_read]
  rw [if_pos (by omega), if_pos (by omega), if_pos (by omega), if_pos (by omega), h0.1, h0.2, h1.1, h1.2, h2.1, h2.2,
    h3.1, h3.2, wordOfBytes_le32]

/-- R101: the one length that passes is 8192. -/
theorem validateLength_eq (len : Word) :
    validateLength len =
      if len.toNat % 8192 ≠ 0 then some .misalignedBufferSize
      else if len.toNat ≠ 8192 then some .invalidBankCount else none := by
  simp only [validateLength, Config.bankBytes, Config.banksAccepted]
  by_cases h : len.toNat % 8192 = 0
  · have h32 : len.toNat % 32 = 0 := by omega
    have hd : len.toNat / 8192 = 1 ↔ len.toNat = 8192 := by omega
    simp [h, h32, hd]
  · simp [h]

/-- What the decode phase can do: nothing but raise code 2 or 1, or store the grid of side 16 (so code 3 is never
raised, 40_decode.md R103). -/
theorem decodePhase_eq (len : Word) (s : State) :
    decodePhase len s =
      if len.toNat % 8192 ≠ 0 then .error .misalignedBufferSize s
      else if len.toNat ≠ 8192 then .error .invalidBankCount s else .ok (storeGrid 16 s) := by
  rw [decodePhase, validateLength_eq]
  by_cases h : len.toNat % 8192 = 0
  · by_cases h2 : len.toNat = 8192
    · have hl : len = 8192 := BitVec.eq_of_toNat_eq h2
      subst hl
      simp [gridSide_8192, gridTiles_8192]
    · simp [h, h2]
  · simp [h]

theorem storeGrid_width_16 (s : State) : (storeGrid 16 s).width = 128 ∧ (storeGrid 16 s).height = 128 := ⟨rfl, rfl⟩

end Sys2Proof.Laws
end

