-- ==== Sys2Proof/Laws/Writer.lean ====
section
/-! SUPPORT. What the write phase does: the file image byte by byte, and the three ways the phase ends. -/

namespace Sys2Proof.Laws
open Sys2Proof.Machine

/-- The two headers together are 54 bytes for every width and height (41_write.md R141). -/
theorem length_headers (w h : Nat) : (fileHeader w h ++ imageHeader w h).length = 54 := rfl

theorem length_pixelData (fb : Ram) (n : Nat) : (pixelData fb n).length = 4 * n := by simp [pixelData, Ram.bytes]

theorem length_fileImage (fb : Ram) (w h : Nat) : (fileImage fb w h).length = fileSize w h := by
  rw [fileImage, List.length_append, length_headers, length_pixelData, fileSize, Config.hdrBytes, Nat.mul_comm 4]

/-- A header byte of the file image. -/
theorem getElem?_fileImage_header (fb : Ram) (w h o : Nat) (ho : o < 54) :
    (fileImage fb w h)[o]? = (fileHeader w h ++ imageHeader w h)[o]? := by
  rw [fileImage, List.getElem?_append_left (by rw [length_headers]; exact ho)]

/-- A pixel byte of the file image is the same byte of FB (41_write.md R145, R146). -/
theorem getElem?_fileImage_pixel (fb : Ram) (w h i : Nat) (hi : i < 4 * (w * h)) :
    (fileImage fb w h)[54 + i]? = some (fb.read i) := by
  rw [fileImage, List.getElem?_append_right (by rw [length_headers]; omega), length_headers]
  simp [pixelData, Ram.bytes, hi]

/-- Every byte of OUT after a successful write. -/
theorem storeFile_out_read (s : State) (o : Nat) :
    (storeFile s).out.read o =
      if o < s.fileSize then ((fileImage s.fb s.width.toNat s.height.toNat)[o]?).getD 0 else s.out.read o := by
  rw [storeFile_out, Ram_read_storePrefix, length_fileImage]; rfl

theorem storeFile_pixel (s : State) (i : Nat) (hi : i < 4 * (s.width.toNat * s.height.toNat)) :
    (storeFile s).out.read (54 + i) = s.fb.read i := by
  rw [storeFile_out_read, if_pos (by simp only [State.fileSize, fileSize, Config.hdrBytes]; omega),
    getElem?_fileImage_pixel _ _ _ _ hi]
  rfl

theorem storeFile_header (s : State) (o : Nat) (ho : o < 54) :
    (storeFile s).out.read o =
      ((fileHeader s.width.toNat s.height.toNat ++ imageHeader s.width.toNat s.height.toNat)[o]?).getD 0 := by
  rw [storeFile_out_read, if_pos (by simp only [State.fileSize, fileSize, Config.hdrBytes]; omega),
    getElem?_fileImage_header _ _ _ _ ho]

/-- The six last header fields, 24 zero bytes, after the 30 bytes that are not all zero (41_write.md R143). -/
theorem headers_split (w h : Nat) :
    fileHeader w h ++ imageHeader w h =
      (fileHeader w h ++ (field32 40 ++ field32 w ++ field32 h ++ field16 1 ++ field16 32)) ++ List.replicate 24 0 := by
  have hz : field32 0 ++ (field32 0 ++ (field32 0 ++ (field32 0 ++ (field32 0 ++ field32 0)))) =
      List.replicate 24 0 := by decide
  simp only [imageHeader, List.append_assoc, hz]

theorem headers_zero (w h o : Nat) (h1 : 30 ≤ o) (h2 : o < 54) :
    ((fileHeader w h ++ imageHeader w h)[o]?).getD 0 = 0 := by
  have hl : (fileHeader w h ++ (field32 40 ++ field32 w ++ field32 h ++ field16 1 ++ field16 32)).length = 30 := rfl
  rw [headers_split, List.getElem?_append_right (by rw [hl]; exact h1), hl, List.getElem?_replicate,
    if_pos (by omega)]
  rfl

/-- The header for the one grid the block makes, byte for byte. -/
theorem headers_128 : fileHeader 128 128 ++ imageHeader 128 128 = header128 := by decide

theorem fileSize_128 : fileSize 128 128 = 65590 := rfl

end Sys2Proof.Laws
end

