-- ==== Sys2Proof/Laws/Commands.lean ====
section
/-! SUPPORT. What each command does in its two steps: the issue when idle, and every way its completion can end. -/

namespace Sys2Proof.Laws
open Sys2Proof.Machine

theorem runCommand_idle (op : Op) (body : Word → State → Phase) (s : State) (h : s.pend = none) :
    runCommand op body s = .next (accept op s) := by simp [runCommand, h]

theorem runCommand_pending (op : Op) (body : Word → State → Phase) (s : State) (len : Word)
    (h : s.pend = some { op := op, len := len }) : runCommand op body s = finish (body len s) := by
  simp [runCommand, h]

theorem runCommand_other (op : Op) (body : Word → State → Phase) (s : State) (p : Pending)
    (h : s.pend = some p) (hp : p.op ≠ op) : runCommand op body s = .next (flagHazard s) := by
  simp [runCommand, h, hp]

/-- The three ends of the write phase, in the order of their checks (41_write.md R148, R147), and the fault. -/
theorem writePhase_noGrid (s : State) (h : s.gridValid = false) : writePhase s = .error .noGrid s := by
  simp [writePhase, h]

theorem writePhase_ioFailure (s : State) (h : s.gridValid = true) (hc : s.outCap.val < s.fileSize) :
    writePhase s = .error .ioFailure s := by simp [writePhase, h, hc]

theorem writePhase_fault (s : State) (h : s.gridValid = true) (hc : s.fileSize ≤ s.outCap.val)
    (hf : 16384 < s.width.toNat * s.height.toNat) : writePhase s = .fault .fbIndexOutOfRange := by
  simp [writePhase, h, Nat.not_lt.2 hc, Config.fbWords, hf]

theorem writePhase_ok (s : State) (h : s.gridValid = true) (hc : s.fileSize ≤ s.outCap.val)
    (hf : s.width.toNat * s.height.toNat ≤ 16384) : writePhase s = .ok (storeFile s) := by
  simp [writePhase, h, Nat.not_lt.2 hc, Config.fbWords, Nat.not_lt.2 hf]

theorem fileSize_of_128 (s : State) (hw : s.width = 128) (hh : s.height = 128) : s.fileSize = 65590 := by
  rw [State.fileSize, hw, hh]; rfl

theorem fileSize_storeGrid (s : State) : (storeGrid 16 s).fileSize = 65590 :=
  fileSize_of_128 _ (storeGrid_width_16 s).1 (storeGrid_width_16 s).2

/-- The write phase on the state a successful decode leaves can only succeed or run out of room. -/
theorem writePhase_storeGrid (s : State) :
    writePhase (storeGrid 16 s) =
      if s.outCap.val < 65590 then .error .ioFailure (storeGrid 16 s) else .ok (storeFile (storeGrid 16 s)) := by
  split
  · next h => exact writePhase_ioFailure _ rfl (by rw [fileSize_storeGrid]; exact h)
  · next h => exact writePhase_ok _ rfl (by rw [fileSize_storeGrid]; exact Nat.le_of_not_lt h) (by rw [(storeGrid_width_16 s).1, (storeGrid_width_16 s).2]; decide)

/-- What the extract phase can do (42_sequencer.md R174). -/
theorem extractPhase_eq (len : Word) (s : State) :
    extractPhase len s =
      if len.toNat % 8192 ≠ 0 then .error .misalignedBufferSize s
      else if len.toNat ≠ 8192 then .error .invalidBankCount s
      else if s.outCap.val < 65590 then .error .ioFailure (storeGrid 16 s)
      else .ok (storeFile (storeGrid 16 s)) := by
  rw [extractPhase, decodePhase_eq]
  by_cases h : len.toNat % 8192 = 0
  · by_cases h2 : len.toNat = 8192
    · simp [h2, writePhase_storeGrid]
    · simp [h, h2]
  · simp [h]

/-- FB holds a grid after a successful decode (10_state.md R38). -/
theorem holdsGrid_storeGrid (s : State) : HoldsGrid (storeGrid 16 s).fb :=
  ⟨s.tile.read, fun n hn => storeGrid_fbWord s n hn⟩

/-- OUT holds the file of FB after a successful write of a 128 x 128 grid (10_state.md R38). -/
theorem holdsFile_storeFile (s : State) (hw : s.width = 128) (hh : s.height = 128) :
    HoldsFile (storeFile s).out s.fb := by
  refine ⟨fun o ho => ?_, fun i hi => storeFile_pixel s i (by rw [hw, hh]; exact hi)⟩
  rw [storeFile_header s o ho, hw, hh]
  exact congrArg (fun l : List Byte => (l[o]?).getD 0) headers_128

theorem wf_storeGrid_fb (s : State) (h : s.fb.wf 65536) : (storeGrid 16 s).fb.wf 65536 := by
  rw [storeGrid_fb]
  exact Ram_wf_storePrefix _ _ _ h (by rw [length_gridBytes])

theorem wf_storeFile_out (s : State) (h : s.out.wf s.outCap.val) (hc : s.fileSize ≤ s.outCap.val) :
    (storeFile s).out.wf s.outCap.val := by
  rw [storeFile_out]
  exact Ram_wf_storePrefix _ _ _ h (by rw [length_fileImage]; exact hc)

end Sys2Proof.Laws
end

