-- ==== Sys2Proof/Laws/Bus.lean ====
section
/-! SUPPORT. What a bus address names, said once for each window, and which accesses are permitted. -/

namespace Sys2Proof.Laws
open Sys2Proof.Machine

theorem resolve_reg (a : Word) (h : a.toNat < 0x20) : resolve a .four = (regAt a.toNat).map .reg := by
  simp [resolve, Config.regWindowBytes, h]

theorem resolve_reg_small (a : Word) (n : Size) (h : a.toNat < 0x20) (hn : n ≠ .four) : resolve a n = none := by
  cases n <;> simp_all [resolve, Config.regWindowBytes]

theorem resolve_of_ramAt (a : Word) (n : Size) (h : ¬ a.toNat < 0x20) (m : RamName) (o : Nat)
    (hr : ramAt a.toNat = some (m, o)) : resolve a n = (ramWidth n o).map fun w => .ram m w o := by
  simp [resolve, Config.regWindowBytes, h, hr]

theorem ramAt_tile (o : Nat) (h : o < 8192) : ramAt (0x2000 + o) = some (.tile, o) := by
  simp only [ramAt, Config.tileBase, Config.tileRamBytes]
  rw [if_pos (by omega), Nat.add_sub_cancel_left]

theorem ramAt_fb (o : Nat) (h : o < 65536) : ramAt (0x10000 + o) = some (.fb, o) := by
  simp only [ramAt, Config.tileBase, Config.tileRamBytes, Config.fbBase, Config.fbWindowBytes]
  rw [if_neg (by omega), if_pos (by omega), Nat.add_sub_cancel_left]

theorem ramAt_out (o : Nat) (h : o < 131072) : ramAt (0x20000 + o) = some (.out, o) := by
  simp only [ramAt, Config.tileBase, Config.tileRamBytes, Config.fbBase, Config.fbWindowBytes, Config.outBase,
    Config.outWindowBytes]
  rw [if_neg (by omega), if_neg (by omega), if_pos (by omega), Nat.add_sub_cancel_left]

theorem ramAt_unmapped (a : Nat) (h1 : ¬ (0x2000 ≤ a ∧ a ≤ 0x3FFF)) (h2 : ¬ (0x10000 ≤ a ∧ a ≤ 0x1FFFF))
    (h3 : ¬ (0x20000 ≤ a ∧ a ≤ 0x3FFFF)) : ramAt a = none := by
  simp only [ramAt, Config.tileBase, Config.tileRamBytes, Config.fbBase, Config.fbWindowBytes, Config.outBase,
    Config.outWindowBytes]
  rw [if_neg (by omega), if_neg (by omega), if_neg (by omega)]

/-- The window of an address: TILE, FB, OUT, or none (20_memory.md R51). -/
theorem ramAt_cases (a : Nat) :
    (∃ o < 8192, a = 0x2000 + o ∧ ramAt a = some (.tile, o)) ∨
    (∃ o < 65536, a = 0x10000 + o ∧ ramAt a = some (.fb, o)) ∨
    (∃ o < 131072, a = 0x20000 + o ∧ ramAt a = some (.out, o)) ∨
    (¬ (0x2000 ≤ a ∧ a ≤ 0x3FFF) ∧ ¬ (0x10000 ≤ a ∧ a ≤ 0x1FFFF) ∧ ¬ (0x20000 ≤ a ∧ a ≤ 0x3FFFF) ∧
      ramAt a = none) := by
  by_cases h1 : 0x2000 ≤ a ∧ a ≤ 0x3FFF
  · obtain ⟨o, rfl⟩ := Nat.exists_eq_add_of_le h1.1
    exact .inl ⟨o, by omega, rfl, ramAt_tile o (by omega)⟩
  · by_cases h2 : 0x10000 ≤ a ∧ a ≤ 0x1FFFF
    · obtain ⟨o, rfl⟩ := Nat.exists_eq_add_of_le h2.1
      exact .inr (.inl ⟨o, by omega, rfl, ramAt_fb o (by omega)⟩)
    · by_cases h3 : 0x20000 ≤ a ∧ a ≤ 0x3FFFF
      · obtain ⟨o, rfl⟩ := Nat.exists_eq_add_of_le h3.1
        exact .inr (.inr (.inl ⟨o, by omega, rfl, ramAt_out o (by omega)⟩))
      · exact .inr (.inr (.inr ⟨h1, h2, h3, ramAt_unmapped a h1 h2 h3⟩))

theorem regAt_none_of_misaligned (a : Nat) (h : a % 4 ≠ 0) : regAt a = none := by
  unfold regAt; split <;> first | omega | rfl

theorem regAt_isSome (a : Nat) (h : a < 0x20) (h4 : a % 4 = 0) : ∃ r, regAt a = some r := by
  obtain rfl | rfl | rfl | rfl | rfl | rfl | rfl | rfl :
    a = 0 ∨ a = 4 ∨ a = 8 ∨ a = 12 ∨ a = 16 ∨ a = 20 ∨ a = 24 ∨ a = 28 := by omega
  all_goals exact ⟨_, rfl⟩

/-- The model's check of an access is the rules' (20_memory.md R54 to R57): a read is resolved exactly when it is
permitted. -/
theorem resolve_eq_none_iff (a : Word) (n : Size) : resolve a n = none ↔ ¬ ReadPermitted a.toNat n := by
  by_cases h : a.toNat < 0x20
  · cases n with
    | one => rw [resolve_reg_small a _ h (by decide)]; simp [ReadPermitted]; omega
    | two => rw [resolve_reg_small a _ h (by decide)]; simp [ReadPermitted]
    | four =>
      rw [resolve_reg a h]
      by_cases h4 : a.toNat % 4 = 0
      · obtain ⟨r, hr⟩ := regAt_isSome _ h h4
        simp [hr, ReadPermitted, h4]; omega
      · simp [regAt_none_of_misaligned _ h4, ReadPermitted, h4]
  · rcases ramAt_cases a.toNat with ⟨o, ho, ha, hr⟩ | ⟨o, ho, ha, hr⟩ | ⟨o, ho, ha, hr⟩ | ⟨h1, h2, h3, hr⟩
    iterate 3
      rw [resolve_of_ramAt a n h _ o hr]
      cases n with
      | one => simp [ramWidth, ReadPermitted, ha]; omega
      | two => simp [ramWidth, ReadPermitted]
      | four =>
        by_cases h4 : o % 4 = 0
        · simp [ramWidth, ReadPermitted, ha, h4]; omega
        · simp [ramWidth, ReadPermitted, ha, h4]; omega
    · have hn : resolve a n = none := by simp [resolve, Config.regWindowBytes, h, hr]
      simp only [hn, true_iff, ReadPermitted]
      rintro (⟨_, hx⟩ | ⟨_, _, hx⟩) <;> omega

/-- A write is resolved to something writable exactly when it is permitted (10_state.md R22, 20_memory.md R54 to
R57). -/
theorem writable_iff (a : Word) (n : Size) :
    (∃ t, resolve a n = some t ∧ t.writable = true) ↔ WritePermitted a.toNat n := by
  by_cases h : a.toNat < 0x20
  · cases n with
    | one => rw [resolve_reg_small a _ h (by decide)]; simp [WritePermitted]; omega
    | two => rw [resolve_reg_small a _ h (by decide)]; simp [WritePermitted]
    | four =>
      rw [resolve_reg a h]
      by_cases h4 : a.toNat % 4 = 0
      · obtain ha | ha | ha | ha | ha | ha | ha | ha : a.toNat = 0 ∨ a.toNat = 4 ∨ a.toNat = 8 ∨ a.toNat = 12 ∨
          a.toNat = 16 ∨ a.toNat = 20 ∨ a.toNat = 24 ∨ a.toNat = 28 := by omega
        all_goals simp [ha, regAt, Target.writable, WritePermitted]
      · simp only [regAt_none_of_misaligned _ h4, Option.map_none, WritePermitted]
        constructor
        · rintro ⟨t, ht, _⟩; cases ht
        · rintro (⟨hn, _⟩ | ⟨_, hx⟩ | ⟨_, hx, _⟩)
          · cases hn
          · omega
          · omega
  · rcases ramAt_cases a.toNat with ⟨o, ho, ha, hr⟩ | ⟨o, ho, ha, hr⟩ | ⟨o, ho, ha, hr⟩ | ⟨h1, h2, h3, hr⟩
    · rw [resolve_of_ramAt a n h _ o hr]
      cases n with
      | one => simp [ramWidth, WritePermitted, ha, Target.writable]; omega
      | two => simp [ramWidth, WritePermitted]
      | four =>
        by_cases h4 : o % 4 = 0
        · simp [ramWidth, WritePermitted, ha, h4, Target.writable]; omega
        · simp [ramWidth, WritePermitted, ha, h4]; omega
    iterate 2
      rw [resolve_of_ramAt a n h _ o hr]
      cases n with
      | one => simp [ramWidth, WritePermitted, ha, Target.writable]; omega
      | two => simp [ramWidth, WritePermitted]
      | four =>
        by_cases h4 : o % 4 = 0
        · simp [ramWidth, WritePermitted, ha, h4, Target.writable]; omega
        · simp [ramWidth, WritePermitted, ha, h4]; omega
    · have hn : resolve a n = none := by simp [resolve, Config.regWindowBytes, h, hr]
      simp only [hn, WritePermitted]
      constructor
      · rintro ⟨t, ht, _⟩; cases ht
      · rintro (⟨_, hx⟩ | ⟨_, hx⟩ | ⟨_, _, hx⟩) <;> omega

/-- Where a RAM access can lie: inside the RAM's window, a word at a multiple of 4. -/
theorem resolve_ram {addr : Word} {n : Size} {m : RamName} {w : Width} {o : Nat}
    (h : resolve addr n = some (.ram m w o)) :
    (m = .tile → o < 8192) ∧ (m = .fb → o < 65536) ∧ (m = .out → o < 131072) ∧ (w = .word → o % 4 = 0) := by
  simp only [resolve] at h
  split at h
  · cases n <;> simp at h
  · cases hr : ramAt addr.toNat with
    | none => simp [hr] at h
    | some q =>
      obtain ⟨m', o'⟩ := q
      simp only [hr, Option.map_eq_some_iff] at h
      obtain ⟨w', hw, he⟩ := h
      cases he
      simp only [ramAt, Config.tileBase, Config.tileRamBytes, Config.fbBase, Config.fbWindowBytes, Config.outBase,
        Config.outWindowBytes] at hr
      have hal : w = .word → o % 4 = 0 := by
        intro hww
        subst hww
        cases n <;> simp [ramWidth] at hw
        exact hw
      split at hr
      · cases hr; exact ⟨fun _ => by omega, nofun, nofun, hal⟩
      · split at hr
        · cases hr; exact ⟨nofun, fun _ => by omega, nofun, hal⟩
        · split at hr
          · cases hr; exact ⟨nofun, nofun, fun _ => by omega, hal⟩
          · cases hr

/-- A RAM access in the TILE window has a TILE address. -/
theorem resolve_tile_addr {addr : Word} {n : Size} {w : Width} {o : Nat}
    (h : resolve addr n = some (.ram .tile w o)) : 0x2000 ≤ addr.toNat ∧ addr.toNat ≤ 0x3FFF := by
  by_cases h20 : addr.toNat < 0x20
  · cases n <;> simp [resolve, Config.regWindowBytes, h20] at h
  · rcases ramAt_cases addr.toNat with ⟨o, ho, ha, hr⟩ | ⟨o, ho, ha, hr⟩ | ⟨o, ho, ha, hr⟩ | ⟨_, _, _, hr⟩
    · omega
    all_goals simp [resolve, Config.regWindowBytes, h20, hr] at h

/-- A register is named by an aligned word access to its own address only (10_state.md R22). -/
theorem resolve_reg_addr {addr : Word} {n : Size} {r : Reg} (h : resolve addr n = some (.reg r)) :
    n = .four ∧ (r = .cmd → addr = 0) ∧ (r = .status → addr = 4) ∧ (r = .inLen → addr = 8) := by
  have hr : n = .four ∧ regAt addr.toNat = some r := by
    simp only [resolve] at h
    split at h
    · cases n <;> simp at h ⊢; exact h
    · split at h
      · cases h
      · simp at h
  obtain ⟨hn, hr⟩ := hr
  unfold regAt at hr
  refine ⟨hn, ?_, ?_, ?_⟩ <;> rintro rfl <;> split at hr <;> simp at hr <;>
    exact BitVec.eq_of_toNat_eq (by assumption)

/-- A host read taken as a step. -/
theorem step_read (s : State) (a : Word) (n : Size) (rest : List Input)
    (h : s.inputs = .host (.read a n) :: rest) : step s = .next (hostRead a n { s with inputs := rest }) := by
  simp [step, h, runInput, hostStep]

/-- A host write taken as a step. -/
theorem step_write (s : State) (a v : Word) (n : Size) (rest : List Input)
    (h : s.inputs = .host (.write a n v) :: rest) : step s = hostWrite a n v { s with inputs := rest } := by
  simp [step, h, runInput, hostStep]

end Sys2Proof.Laws
end

