-- ==== Sys2Proof/Laws/PerInstr.lean ====
section
/-! SUPPORT. Statements for all instructions, one lemma per constructor. `RoundTrip`: each command is well formed, its
word is a legal command word, and the decoder reads it back from the front of any byte list (30_encoding.md R80 to
R82). -/

namespace Sys2Proof.Laws

/-- Decoding the bytes of a command gives the command and leaves the rest of the list. -/
def RoundTrip.Statement (i : Instr) : Prop :=
  i.wf = true ∧ CommandWord.wf (encode i) = true ∧ ∀ rest : List Byte, decodeBytes (encodeBytes i ++ rest) = .ok (i, rest)

theorem RoundTrip.nop : RoundTrip.Statement .nop := ⟨rfl, by decide, fun _ => rfl⟩
theorem RoundTrip.decode : RoundTrip.Statement .decode := ⟨rfl, by decide, fun _ => rfl⟩
theorem RoundTrip.write : RoundTrip.Statement .write := ⟨rfl, by decide, fun _ => rfl⟩
theorem RoundTrip.extract : RoundTrip.Statement .extract := ⟨rfl, by decide, fun _ => rfl⟩

end Sys2Proof.Laws
end

