-- ==== Sys2Proof/Laws/Step.lean ====
section
/-! SUPPORT. Said once: everything a step can do, and from which input. Every whole-machine law is a case analysis of
`StepChange`. -/

namespace Sys2Proof.Laws
open Sys2Proof.Machine

/-- Everything the engine's step can do. -/
inductive EngineChange (s : State) : State → Prop where
  /-- Nothing pending. -/
  | idle : s.pend = none → EngineChange s s
  /-- DECODE completed. -/
  | decoded : s.pend = some { op := .decode, len := 8192 } → EngineChange s (completeOk (storeGrid 16 s))
  /-- WRITE completed. -/
  | written (len : Word) : s.pend = some { op := .write, len := len } → s.gridValid = true →
      s.fileSize ≤ s.outCap.val → s.width.toNat * s.height.toNat ≤ 16384 →
      EngineChange s (completeOk (storeFile s))
  /-- EXTRACT completed. -/
  | extracted : s.pend = some { op := .extract, len := 8192 } → 65590 ≤ s.outCap.val →
      EngineChange s (completeOk (storeFile (storeGrid 16 s)))
  /-- A command failed before it wrote anything. -/
  | failed (p : Pending) (e : ErrorCode) : s.pend = some p → e ≠ .nonSquareTileArrangement →
      EngineChange s (raiseError e s)
  /-- EXTRACT failed in its write phase. -/
  | extractFailed : s.pend = some { op := .extract, len := 8192 } → s.outCap.val < 65590 →
      EngineChange s (raiseError .ioFailure (storeGrid 16 s))

/-- Everything a step can do, with the input it takes. -/
inductive StepChange (s : State) : State → Prop where
  /-- The engine's turn, by its own input or after the last one. -/
  | engine (rest : List Input) (t : State) : (s.inputs = .engine :: rest ∨ s.inputs = [] ∧ rest = []) →
      EngineChange { s with inputs := rest } t → StepChange s t
  /-- A reset. -/
  | reset (rest : List Input) : s.inputs = .reset :: rest → StepChange s (resetStep { s with inputs := rest })
  /-- A permitted read of a stored value. -/
  | read (rest : List Input) (a : Word) (n : Size) (t : Target) : s.inputs = .host (.read a n) :: rest →
      resolve a n = some t → s.hides t = false →
      StepChange s (answer (readTarget t { s with inputs := rest }) { s with inputs := rest })
  /-- A read of a RAM being written. -/
  | draw (rest : List Input) (a : Word) (n : Size) (t : Target) : s.inputs = .host (.read a n) :: rest →
      resolve a n = some t → s.hides t = true → StepChange s (answerDraw t.width { s with inputs := rest })
  /-- A violating read. -/
  | violatingRead (rest : List Input) (a : Word) (n : Size) : s.inputs = .host (.read a n) :: rest →
      resolve a n = none → StepChange s (violatingRead { s with inputs := rest })
  /-- A violating or dropped write. -/
  | hazard (rest : List Input) (a v : Word) (n : Size) : s.inputs = .host (.write a n v) :: rest →
      StepChange s (flagHazard { s with inputs := rest })
  /-- NOP, or a write to the reserved register. -/
  | same (rest : List Input) (a v : Word) (n : Size) : s.inputs = .host (.write a n v) :: rest →
      StepChange s { s with inputs := rest }
  /-- An illegal command word. -/
  | illegal (rest : List Input) (v : Word) : s.inputs = .host (.write 0 .four v) :: rest → s.pend = none →
      StepChange s (illegalCmd { s with inputs := rest })
  /-- A command accepted. -/
  | accepted (rest : List Input) (v : Word) (op : Op) : s.inputs = .host (.write 0 .four v) :: rest →
      s.pend = none → StepChange s (accept op { s with inputs := rest })
  /-- A write to STATUS. -/
  | acknowledged (rest : List Input) (v : Word) : s.inputs = .host (.write 4 .four v) :: rest →
      StepChange s (acknowledge v { s with inputs := rest })
  /-- A write to IN_LEN. -/
  | lengthSet (rest : List Input) (v : Word) : s.inputs = .host (.write 8 .four v) :: rest → s.pend = none →
      StepChange s (setInLen v { s with inputs := rest })
  /-- A write to TILE. -/
  | tileStored (rest : List Input) (a v : Word) (n : Size) (o : Nat) (bs : List Byte) :
      s.inputs = .host (.write a n v) :: rest → s.pend = none → 0x2000 ≤ a.toNat → a.toNat ≤ 0x3FFF →
      o + bs.length ≤ 8192 → StepChange s (storeTile o bs { s with inputs := rest })

/-- The engine's step does what `EngineChange` says. -/
theorem engineChange_of_engineStep {s t : State} (h : engineStep s = .next t) : EngineChange s t := by
  cases hp : s.pend with
  | none =>
    simp only [engineStep, hp, Host.Outcome.next.injEq] at h
    subst h; exact .idle hp
  | some p =>
    obtain ⟨op, len⟩ := p
    have hl : ∀ h : len.toNat = 8192, s.pend = some { op := op, len := 8192 } := fun h => by
      rw [hp, show len = 8192 from BitVec.eq_of_toNat_eq h]
    simp only [engineStep, hp] at h
    cases op with
    | decode =>
      simp only [Op.instr, exec, execDecode, runCommand_pending _ _ s len hp, decodePhase_eq] at h
      split at h
      · cases h; exact .failed _ _ hp (by decide)
      · split at h
        · cases h; exact .failed _ _ hp (by decide)
        · cases h; exact .decoded (hl (by omega))
    | write =>
      simp only [Op.instr, exec, execWrite, runCommand_pending _ _ s len hp] at h
      by_cases hg : s.gridValid = true
      · by_cases hc : s.outCap.val < s.fileSize
        · rw [writePhase_ioFailure s hg hc] at h
          cases h; exact .failed _ _ hp (by decide)
        · by_cases hf : 16384 < s.width.toNat * s.height.toNat
          · rw [writePhase_fault s hg (Nat.le_of_not_lt hc) hf] at h
            cases h
          · rw [writePhase_ok s hg (Nat.le_of_not_lt hc) (Nat.le_of_not_lt hf)] at h
            cases h; exact .written len hp hg (Nat.le_of_not_lt hc) (Nat.le_of_not_lt hf)
      · rw [writePhase_noGrid s (by simpa using hg)] at h
        cases h; exact .failed _ _ hp (by decide)
    | extract =>
      simp only [Op.instr, exec, execExtract, runCommand_pending _ _ s len hp, extractPhase_eq] at h
      split at h
      · cases h; exact .failed _ _ hp (by decide)
      · split at h
        · cases h; exact .failed _ _ hp (by decide)
        · next h2 =>
          split at h
          · next hc => cases h; exact .extractFailed (hl (by omega)) hc
          · next hc => cases h; exact .extracted (hl (by omega)) (Nat.le_of_not_lt hc)

/-- A command issued while idle is accepted, or is NOP. -/
theorem exec_idle (i : Instr) (s : State) (h : s.pend = none) :
    exec i s = .next (match i with
      | .nop => s
      | .decode => accept .decode s
      | .write => accept .write s
      | .extract => accept .extract s) := by
  cases i with
  | nop => simp [exec, execNop, State.busy, h]
  | decode => exact runCommand_idle _ _ s h
  | write => exact runCommand_idle .write (fun _ => writePhase) s h
  | extract => exact runCommand_idle _ _ s h

@[simp] theorem length_storedBytes_byte (v : Word) : (storedBytes .byte v).length = 1 := by simp [storedBytes]
@[simp] theorem length_storedBytes_word (v : Word) : (storedBytes .word v).length = 4 := by simp [storedBytes]

/-- A host write does what `StepChange` says. -/
theorem stepChange_of_hostWrite {s t : State} {rest : List Input} {a v : Word} {n : Size}
    (hi : s.inputs = .host (.write a n v) :: rest) (h : hostWrite a n v { s with inputs := rest } = .next t) :
    StepChange s t := by
  rw [hostWrite] at h
  cases hr : resolve a n with
  | none =>
    simp only [hr, Host.Outcome.next.injEq] at h
    subst h; exact .hazard rest a v n hi
  | some tgt =>
    simp only [hr] at h
    split at h
    · cases h; exact .hazard rest a v n hi
    · split at h
      · cases h; exact .hazard rest a v n hi
      · next hw hb =>
        have idle : tgt.lockedWhileBusy = true → s.pend = none := fun hl => by
          rw [← busy_eq_false_iff]
          simpa [hl, State.busy] using hb
        cases tgt with
        | reg r =>
          obtain ⟨rfl, h0, h4, h8⟩ := resolve_reg_addr hr
          cases r <;> simp only [performWrite] at h
          · obtain rfl := h0 rfl
            rw [issueCommand] at h
            split at h
            · next i _ =>
              rw [exec_idle i { s with inputs := rest } (idle rfl)] at h
              cases h
              cases i
              · exact .same rest _ v _ hi
              all_goals exact .accepted rest v _ hi (idle rfl)
            · cases h; exact .illegal rest v hi (idle rfl)
          · obtain rfl := h4 rfl
            cases h; exact .acknowledged rest v hi
          · obtain rfl := h8 rfl
            cases h; exact .lengthSet rest v hi (idle rfl)
          all_goals (cases h; exact .same rest _ v _ hi)
        | ram m w o =>
          cases m
          · cases h
            have ha := resolve_tile_addr hr
            have ho := resolve_ram hr
            refine .tileStored rest a v n o _ hi (idle rfl) ha.1 ha.2 ?_
            cases w
            · have := ho.1 rfl; rw [length_storedBytes_byte]; omega
            · have h1 := ho.1 rfl
              have h2 := ho.2.2.2 rfl
              rw [length_storedBytes_word]; omega
          all_goals exact absurd rfl hw

/-- Everything a step can do. -/
theorem stepChange_of_step {s t : State} (h : step s = .next t) : StepChange s t := by
  cases hi : s.inputs with
  | nil =>
    have hs : { s with inputs := [] } = s := by
      cases s; simp only [State.mk.injEq, true_and, and_true] at hi ⊢; exact hi.symm
    simp only [step, hi] at h
    exact .engine [] t (.inr ⟨hi, rfl⟩) (by rw [hs]; exact engineChange_of_engineStep h)
  | cons e rest =>
    simp only [step, hi] at h
    cases e with
    | host tr =>
      cases tr with
      | read a n =>
        simp only [runInput, hostStep, hostRead, Host.Outcome.next.injEq] at h
        split at h
        · next hr => subst h; exact .violatingRead rest a n hi hr
        · next tgt hr =>
          split at h
          · next hh => subst h; exact .draw rest a n tgt hi hr hh
          · next hh => subst h; exact .read rest a n tgt hi hr (Bool.eq_false_iff.2 hh)
      | write a n v => exact stepChange_of_hostWrite hi h
    | engine => exact .engine rest t (.inl hi) (engineChange_of_engineStep h)
    | reset =>
      simp only [runInput, Host.Outcome.next.injEq] at h
      subst h; exact .reset rest hi

/-- A run of one step more is that step, then the rest of the run: for every machine of the host's interface. -/
theorem run_of_step (M : Host.Core) (k : Nat) (s t : M.State) (h : M.step s = .next t) :
    M.run (k + 1) s = M.run k t := by
  rw [Host.Core.run, h]

/-- The same of the block. -/
theorem core_run_of_step (k : Nat) {s t : State} (h : step s = .next t) : core.run (k + 1) s = core.run k t :=
  run_of_step core k s t h

end Sys2Proof.Laws
end

