-- ==== Sys2Proof/Tests/Slice0.lean ====
section
/-! SUPPORT. The model's own tests. Expected values come from the spec: its encoding table, its rules and
95_test_vectors.md. The second half shows, for each statement with hypotheses, a state and operands that meet them. -/

namespace Sys2Proof.Tests
open Sys2Proof.Machine

/-! ### Small states -/

/-- An idle block with one transaction to come. -/
def given (t : Transaction) : State := { State.reset with inputs := [.host t] }

/-- A block with one command pending. -/
def running (op : Op) (len : Word) : State := { State.reset with pend := some ⟨op, len⟩ }

/-- A block with one command pending and one transaction to come. -/
def runningGiven (op : Op) (t : Transaction) : State := { running op 0 with inputs := [.host t] }

/-- A WRITE pending on a valid grid, with `cap` bytes of OUT. -/
def writing (cap : OutCap) : State :=
  { running .write 0 with gridValid := true, width := 128, height := 128, outCap := cap }

/-- A property of a next state; false of a stop. -/
def holdsNext (o : Host.Outcome State Fault Refusal) (p : State → Bool) : Bool :=
  match o with
  | .next s => p s
  | .fault _ => false
  | .refused _ => false

/-- STATUS after one step is `v`. -/
def statusAfter (s : State) (v : Word) : Bool := holdsNext (step s) fun t => statusWord t == v

/-- The value the one read to come returns, and STATUS after it. -/
def answerAfter (s : State) (v status : Word) : Bool :=
  holdsNext (step s) fun t => t.answers == [v] && statusWord t == status

/-! ### Well-formed words -/

theorem test_wf_refuses_reserved_bits :
    CommandWord.reservedZero 0x00000010 = false ∧ CommandWord.opInUse 0x00000010 = true ∧
    CommandWord.wf 0x00000010 = false := by decide

theorem test_wf_refuses_unused_op :
    CommandWord.reservedZero 0x00000004 = true ∧ CommandWord.opInUse 0x00000004 = false ∧
    CommandWord.wf 0x00000004 = false := by decide

/-! ### Decoding: the words of 30_encoding.md R81, bit by bit -/

theorem test_decode_nop : decodeCmd 0b00000000000000000000000000000000 = .ok .nop := by decide
theorem test_decode_decode : decodeCmd 0b00000000000000000000000000000001 = .ok .decode := by decide
theorem test_decode_write : decodeCmd 0b00000000000000000000000000000010 = .ok .write := by decide
theorem test_decode_extract : decodeCmd 0b00000000000000000000000000000011 = .ok .extract := by decide
theorem test_decode_rejects_op : decodeCmd 0x0000000F = .error .undefinedOp := by decide
theorem test_decode_rejects_rsv : decodeCmd 0x80000001 = .error .reservedBits := by decide

theorem test_decode_bytes_low_byte_first : decodeBytes [0x03, 0x00, 0x00, 0x00, 0x7F] = .ok (.extract, [0x7F]) := by
  decide
theorem test_decode_bytes_truncated : decodeBytes [0x03, 0x00, 0x00] = .error .truncated := by decide

theorem test_table_words :
    decodeTableWord 32 0 = some .nop ∧ decodeTableWord 32 1 = some .decode ∧ decodeTableWord 32 2 = some .write ∧
    decodeTableWord 32 3 = some .extract ∧ decodeTableWord 32 4 = none ∧ decodeTableWord 32 16 = none := by decide

/-! ### Issue, completion and errors: STATUS words of 95_test_vectors.md -/

theorem test_issue_sets_busy :
    statusAfter (given (.write 0x0 .four 0x1)) 0x001 ∧ statusAfter (given (.write 0x0 .four 0x2)) 0x001 ∧
    statusAfter (given (.write 0x0 .four 0x3)) 0x001 := by decide

theorem test_placed_word_is_issued :
    holdsNext (step (State.reset.withFetchWord 32 1)) (fun t => t.pend == some ⟨.decode, 0⟩) := by decide

theorem test_nop_keeps_status :
    statusAfter { given (.write 0x0 .four 0x0) with done := true, gridValid := true } 0x102 := by decide

theorem test_illegal_word_P3 : statusAfter (given (.write 0x0 .four 0x7)) 0x064 := by decide
theorem test_byte_write_to_cmd_is_no_command_VE11 : statusAfter (given (.write 0x0 .one 0x1)) 0x400 := by decide
theorem test_illegal_word_while_busy_is_dropped :
    statusAfter (runningGiven .decode (.write 0x0 .four 0x7)) 0x401 := by decide

theorem test_decode_lengths_VD :
    statusAfter (running .decode 0) 0x014 ∧ statusAfter (running .decode 4096) 0x024 ∧
    statusAfter (running .decode 8224) 0x024 ∧ statusAfter (running .decode 0xFFFFE000) 0x014 ∧
    statusAfter (running .decode 0xFFFFFFFF) 0x024 := by decide

theorem test_extract_stops_at_decode_error :
    statusAfter (running .extract 16384) 0x014 ∧ statusAfter (running .extract 31) 0x024 := by decide

theorem test_write_no_grid : statusAfter (running .write 0) 0x054 := by decide
theorem test_write_one_byte_short_R151 : statusAfter (writing 65589) 0x144 ∧ statusAfter (writing 0) 0x144 := by decide

theorem test_clear_P3 :
    statusAfter { given (.write 0x4 .four 0x406) with err := true, errcode := 6, haz := true } 0x000 := by decide

theorem test_reset_clears_VX2 :
    statusAfter { State.reset with
      inputs := [.reset], done := true, gridValid := true, outValid := true, haz := true } 0x000 := by decide

/-! ### The pixel pipeline -/

theorem test_unpack_VD11 : unpackRow 0xA5 0x3C = [1, 0, 3, 2, 2, 3, 0, 1] := by decide
theorem test_unpack_VD12 : unpackRow 0x80 0x01 = [1, 0, 0, 0, 0, 0, 0, 2] := by decide

/-- The FB index of a pixel: tile, row, lane. -/
def place (t j k : Nat) : Nat :=
  cellIndex 16 (pixelColumn (reverseColumn 16 (sourceColumn 16 t)) k) (flipRow 16 (visualRow (tileRow 16 t) j))

theorem test_placement_VD20_to_VD32 :
    place 0 0 0 = 16376 ∧ place 0 0 7 = 16383 ∧ place 0 7 7 = 15487 ∧ place 1 0 0 = 16368 ∧ place 15 0 0 = 16256 ∧
    place 16 0 0 = 15352 ∧ place 17 2 0 = 15088 ∧ place 128 3 5 = 7805 ∧ place 240 7 7 = 127 ∧ place 255 7 0 = 0 := by
  decide

theorem test_geometry_R102_R103 :
    tileCount 8192 = 512 ∧ gridTiles 8192 = 256 ∧ isqrt 15 = 3 ∧ isqrt 16 = 4 ∧ gridPixels 16 = 128 := by decide

/-- V-D10: tile 0's top-left pixel has intensity 3, its neighbour 0. -/
theorem test_grid_cell_VD10 :
    gridCell (fun a => if a = 0 ∨ a = 8 then 0x80 else 0) 16376 = Config.palette 3 ∧
    gridCell (fun a => if a = 0 ∨ a = 8 then 0x80 else 0) 16375 = Config.palette 0 := ⟨rfl, rfl⟩

/-- V-W1: the header of every file, in one run. -/
theorem test_header_VW1 :
    fileHeader 128 128 ++ imageHeader 128 128 =
      [0x42, 0x4D, 0x36, 0, 1, 0, 0, 0, 0, 0, 0x36, 0, 0, 0, 0x28, 0, 0, 0, 0x80, 0, 0, 0, 0x80, 0, 0, 0, 1, 0, 0x20, 0]
        ++ List.replicate 24 0 := by decide

/-! ### Windows -/

theorem test_tile_word_is_little_endian :
    holdsNext (step (given (.write 0x2000 .four 0x89ABCDEF)))
      (fun t => t.tile.cells == [(0, 0xEF), (1, 0xCD), (2, 0xAB), (3, 0x89)] && !t.haz) := by decide

theorem test_memory_stays_sorted :
    Memory.storeBytes [(4, 0x11), (9, 0x22)] 3 [0xAA, 0xBB] = [(3, 0xAA), (4, 0xBB), (9, 0x22)] := by decide

theorem test_violations :
    answerAfter (given (.read 0x20 .four)) 0 0x400 ∧ answerAfter (given (.read 0x2001 .four)) 0 0x400 ∧
    answerAfter (given (.read 0x10000 .two)) 0 0x400 ∧ statusAfter (given (.write 0x10000 .four 1)) 0x400 ∧
    statusAfter (given (.write 0xC .four 1)) 0x400 ∧ statusAfter (given (.write 0x1C .four 1)) 0x000 := by decide

/-- P5: a byte at OUT_CAP reads 0 and is no violation. -/
theorem test_out_at_capacity_P5 : answerAfter { given (.read 0x203E8 .one) with outCap := 1000 } 0 0x000 := by decide

/-- V-D35: an IN_LEN write while BUSY is dropped and sets HAZ. -/
theorem test_length_write_while_busy_VD35 :
    holdsNext (step { runningGiven .decode (.write 0x8 .four 0x40) with inLen := 8192 })
      (fun t => t.inLen == 8192 && statusWord t == 0x401) := by decide

/-! ### Scripts -/

theorem test_script_expansions_R86 :
    Pseudo.clear.expand = [.w32 0x4 0x406] ∧ (Pseudo.tileB 8 0x80).expand = [.w8 0x2008 0x80] ∧
    (Pseudo.fill32 0x2000 2 7).expand = [.w32 0x2000 7, .w32 0x2004 7] ∧
    (Pseudo.fill8 0x2000 2 7).expand = [.w8 0x2000 7, .w8 0x2001 7] ∧
    scriptInputs 2 Pseudo.wait.expand = [.host (.read 0x4 .four), .host (.read 0x4 .four)] := by decide

theorem test_poll_ends_when_not_busy :
    (ScriptLine.poll 0x4 1 0).accepts [0x001, 0x102] = true ∧ (ScriptLine.poll 0x4 1 0).accepts [0x001] = false ∧
    (ScriptLine.poll 0x4 1 0).accepts [0x102, 0x102] = false := by decide

theorem test_exit_code_R177 : hostExitCode 0x014 = some 1 ∧ hostExitCode 0x302 = some 0 ∧ hostExitCode 0x100 = none := by
  decide

/-! ### Witnesses: the hypotheses of each statement, met together; one line per clause -/

theorem witness_DecodeCmdFollowsTable :
    (0xFFFFFFFF : Word).toNat / 16 ≠ 0 ∧ (0x10 : Word).toNat / 16 ≠ 0 ∧
    ((0x0 : Word).toNat / 16 = 0 ∧ (0x0 : Word).toNat % 16 = 0) ∧
    ((0x1 : Word).toNat / 16 = 0 ∧ (0x1 : Word).toNat % 16 = 1) ∧
    ((0x2 : Word).toNat / 16 = 0 ∧ (0x2 : Word).toNat % 16 = 2) ∧
    ((0x3 : Word).toNat / 16 = 0 ∧ (0x3 : Word).toNat % 16 = 3) ∧
    ((0x4 : Word).toNat / 16 = 0 ∧ 4 ≤ (0x4 : Word).toNat % 16) ∧
    ((0xF : Word).toNat / 16 = 0 ∧ 4 ≤ (0xF : Word).toNat % 16) := by decide

theorem witness_StepRunsDecodedCommand :
    (given (.write 0x0 .four 0x3)).inputs = .host (.write 0x00000000 .four 0x3) :: [] ∧
    (given (.write 0x0 .four 0x3)).pend = none ∧ decodeBytes (bytesOfCommand 0x3) = .ok (.extract, []) ∧
    Instr.wf .extract = true := by decide

theorem witness_EngineStepRunsPendingCommand :
    ({ running .decode 8192 with inputs := [.engine, .reset] } : State).inputs = .engine :: [.reset] ∧
    (running .decode 8192).inputs = [] ∧
    (running .decode 8192).pend = some ⟨.decode, 8192⟩ ∧ (running .write 0).pend = some ⟨.write, 0⟩ ∧
    (running .extract 8192).pend = some ⟨.extract, 8192⟩ := by decide

theorem witness_PlacedWordRunsNext : State.reset.pend = none := by decide

theorem witness_NopChangesNothing :
    State.reset.pend = none ∧
    (runningGiven .write (.write 0x0 .four 0x0)).inputs = .host (.write 0x00000000 .four 0x00000000) :: [] ∧
    (runningGiven .write (.write 0x0 .four 0x0)).pend ≠ none := by decide

theorem witness_AcceptanceEffects : State.reset.pend = none := by decide

theorem witness_BusyCommandWriteDropped :
    (runningGiven .decode (.write 0x0 .four 0x1)).inputs = .host (.write 0x00000000 .four 0x1) :: [] ∧
    (runningGiven .decode (.write 0x0 .four 0x1)).pend ≠ none := by decide

theorem witness_IllegalWordCompletesAtOnce :
    (given (.write 0x0 .four 0x4)).inputs = .host (.write 0x00000000 .four 0x4) :: [] ∧
    (given (.write 0x0 .four 0x4)).pend = none ∧ 4 ≤ (0x4 : Word).toNat := by decide

theorem witness_DecodeChecksLength :
    ((running .decode 31).pend = some ⟨.decode, 31⟩ ∧ (31 : Word).toNat % 32 ≠ 0) ∧
    ((running .decode 4096).pend = some ⟨.decode, 4096⟩ ∧ (4096 : Word).toNat % 8192 ≠ 0) ∧
    ((running .decode 0).pend = some ⟨.decode, 0⟩ ∧ (0 : Word).toNat % 32 = 0 ∧ (0 : Word).toNat % 8192 = 0 ∧
      (0 : Word).toNat / 8192 ≠ 1) ∧
    ((running .decode 16384).pend = some ⟨.decode, 16384⟩ ∧ (16384 : Word).toNat % 32 = 0 ∧
      (16384 : Word).toNat % 8192 = 0 ∧ (16384 : Word).toNat / 8192 ≠ 1) ∧
    ((running .decode 8192).pend = some ⟨.decode, 8192⟩ ∧ (8192 : Word).toNat % 32 = 0 ∧
      (8192 : Word).toNat % 8192 = 0 ∧ (8192 : Word).toNat / 8192 = 1) := by decide

theorem witness_DecodeCompletesWithGrid : (running .decode 8192).pend = some ⟨.decode, 8192⟩ := by decide
theorem witness_PlacementIsBijection : (running .decode 8192).pend = some ⟨.decode, 8192⟩ := by decide
theorem witness_GridWordsArePaletteWords : (running .decode 8192).pend = some ⟨.decode, 8192⟩ := by decide

theorem witness_DecodeEqualsLoop :
    (running .decode 8192).pend = some ⟨.decode, 8192⟩ ∧ (running .decode 8192).fb.wf 65536 := by decide

theorem witness_SecondHalfOfBankUnread :
    (∀ a < 4096, ((running .decode 8192).tile.storeBytes 4096 [0xFF]).read a = (running .decode 8192).tile.read a) ∧
    (running .decode 8192).pend = some ⟨.decode, 8192⟩ ∧ (running .extract 8192).pend = some ⟨.extract, 8192⟩ := by
  refine ⟨fun a ha => ?_, by decide, by decide⟩
  have h : ¬ a = 4096 := by omega
  simp [Ram.read, Ram.storeBytes, Memory.storeBytes, Memory.store, Memory.lookup, running, State.reset, h]

theorem witness_DecodeIsIdempotent :
    (running .decode 8192).pend = some ⟨.decode, 8192⟩ ∧
    ({ running .decode 8192 with haz := true } : State).pend = some ⟨.decode, 8192⟩ ∧
    ∀ a < 4096, ({ running .decode 8192 with haz := true } : State).tile.read a = (running .decode 8192).tile.read a :=
  ⟨by decide, by decide, fun _ _ => rfl⟩

theorem witness_DecodeFrame :
    exec .decode State.reset = .next (accept .decode State.reset) ∧
    exec .decode (running .decode 0) = .next (raiseError .invalidBankCount (running .decode 0)) ∧
    exec .decode (running .write 0) = .next (flagHazard (running .write 0)) := ⟨rfl, rfl, rfl⟩

/-- WriteHeaderFields, WritePixelData, WriteCompletesWithFile and WriteHeaderOf128, with OUT_CAP just enough. -/
theorem witness_write_completes :
    (writing 65590).pend = some ⟨.write, 0⟩ ∧ (writing 65590).gridValid = true ∧
    54 + (writing 65590).width.toNat * (writing 65590).height.toNat * 4 ≤ (writing 65590).outCap.val ∧
    (writing 65590).width.toNat * (writing 65590).height.toNat ≤ 16384 ∧
    (writing 65590).width = 128 ∧ (writing 65590).height = 128 ∧ 65590 ≤ (writing 65590).outCap.val := by decide

theorem witness_WriteErrors :
    ((running .write 0).pend = some ⟨.write, 0⟩ ∧ (running .write 0).gridValid = false) ∧
    ((writing 65589).pend = some ⟨.write, 0⟩ ∧ (writing 65589).gridValid = true ∧
      (writing 65589).outCap.val < 54 + (writing 65589).width.toNat * (writing 65589).height.toNat * 4) := by decide

/-- A state that no run reaches: the grid is one row too high. -/
theorem witness_WriteBeyondFbStops :
    ({ writing 131072 with height := 129 } : State).pend = some ⟨.write, 0⟩ ∧
    ({ writing 131072 with height := 129 } : State).gridValid = true ∧
    54 + ({ writing 131072 with height := 129 } : State).width.toNat *
      ({ writing 131072 with height := 129 } : State).height.toNat * 4 ≤
        ({ writing 131072 with height := 129 } : State).outCap.val ∧
    16384 < ({ writing 131072 with height := 129 } : State).width.toNat *
      ({ writing 131072 with height := 129 } : State).height.toNat := by decide

theorem witness_WriteTwiceSameFile :
    (writing 65590).pend = some ⟨.write, 0⟩ ∧ (writing 65590).gridValid = true ∧ (writing 65590).width = 128 ∧
    (writing 65590).height = 128 ∧ 65590 ≤ (writing 65590).outCap.val ∧
    ({ writing 65590 with out := Ram.unspecified 9 } : State).outCap = (writing 65590).outCap ∧
    ∀ n < 16384, fbWord ({ writing 65590 with out := Ram.unspecified 9 } : State).fb n = fbWord (writing 65590).fb n :=
  ⟨by decide, by decide, by decide, by decide, by decide, by decide, fun _ _ => rfl⟩

theorem witness_WriteFrame :
    exec .write State.reset = .next (accept .write State.reset) ∧
    exec .write (running .write 0) = .next (raiseError .noGrid (running .write 0)) ∧
    exec .write (running .decode 0) = .next (flagHazard (running .decode 0)) := ⟨rfl, rfl, rfl⟩

theorem witness_ExtractCompletes :
    (running .extract 8192).pend = some ⟨.extract, 8192⟩ ∧ 65590 ≤ (running .extract 8192).outCap.val := by decide

theorem witness_ExtractErrors :
    ((running .extract 31).pend = some ⟨.extract, 31⟩ ∧ (31 : Word).toNat % 8192 ≠ 0) ∧
    ((running .extract 0).pend = some ⟨.extract, 0⟩ ∧ (0 : Word).toNat % 8192 = 0 ∧ (0 : Word).toNat ≠ 8192) ∧
    (({ running .extract 8192 with outCap := 65589 } : State).pend = some ⟨.extract, 8192⟩ ∧
      (8192 : Word).toNat = 8192 ∧ ({ running .extract 8192 with outCap := 65589 } : State).outCap.val < 65590) := by
  decide

theorem witness_ExtractIsDecodeThenWrite :
    ((running .extract 8192).pend = some ⟨.extract, 8192⟩ ∧ (8192 : Word).toNat = 8192) ∧
    ((running .extract 8191).pend = some ⟨.extract, 8191⟩ ∧ (8191 : Word).toNat ≠ 8192) := by decide

theorem witness_ExtractFrame :
    exec .extract State.reset = .next (accept .extract State.reset) ∧
    exec .extract (running .extract 0) = .next (raiseError .invalidBankCount (running .extract 0)) ∧
    exec .extract (running .decode 0) = .next (flagHazard (running .decode 0)) := ⟨rfl, rfl, rfl⟩

theorem witness_ExtractEndToEnd :
    ({ given (.write 0x0 .four 0x3) with inLen := 8192 } : State).pend = none ∧
    ({ given (.write 0x0 .four 0x3) with inLen := 8192 } : State).inLen = 8192 ∧
    65590 ≤ ({ given (.write 0x0 .four 0x3) with inLen := 8192 } : State).outCap.val ∧
    ({ given (.write 0x0 .four 0x3) with inLen := 8192 } : State).inputs =
      [.host (.write 0x00000000 .four 0x00000003)] := by decide

theorem witness_StatusReadLayout :
    (given (.read 0x4 .four)).inputs = .host (.read 0x00000004 .four) :: [] := by decide

theorem witness_StatusWriteClears :
    (given (.write 0x4 .four 0x406)).inputs = .host (.write 0x00000004 .four 0x406) :: [] := by decide

theorem witness_RegisterAccesses :
    (given (.read 0x00 .four)).inputs = .host (.read 0x00 .four) :: [] ∧
    (given (.read 0x1C .four)).inputs = .host (.read 0x1C .four) :: [] ∧
    ((given (.write 0x08 .four 5)).inputs = .host (.write 0x08 .four 5) :: [] ∧
      (given (.write 0x08 .four 5)).pend = none) ∧
    (given (.write 0x1C .four 5)).inputs = .host (.write 0x1C .four 5) :: [] ∧
    (given (.write 0x0C .four 5)).inputs = .host (.write 0x0C .four 5) :: [] ∧
    (given (.write 0x18 .four 5)).inputs = .host (.write 0x18 .four 5) :: [] := by decide

/-- The first and the last word, and the last byte, of TILE. -/
theorem witness_TileWrites :
    ((given (.write 0x2000 .four 5)).pend = none ∧ (0x2000 : Word).toNat = 0x2000 + 0 ∧ 0 % 4 = 0) ∧
    ((0x3FFC : Word).toNat = 0x2000 + 8188 ∧ 8188 < 8192 ∧ 8188 % 4 = 0) ∧
    ((0x3FFF : Word).toNat = 0x2000 + 8191 ∧ 8191 < 8192) := by decide

/-- The last byte and the last word of each RAM's window, idle and with the commands that do not hide it. -/
theorem witness_RamReads :
    ((0x3FFF : Word).toNat = 0x2000 + 8191 ∧ 8191 < 8192) ∧ ((0x3FFC : Word).toNat = 0x2000 + 8188 ∧ 8188 % 4 = 0) ∧
    ((0x1FFFF : Word).toNat = 0x10000 + 65535 ∧ 65535 < 65536 ∧
      ∀ p, (runningGiven .write (.read 0x1FFFF .one)).pend = some p → p.op = .write) ∧
    ((0x1FFFC : Word).toNat = 0x10000 + 65532 ∧ 65532 % 4 = 0) ∧
    ((0x3FFFF : Word).toNat = 0x20000 + 131071 ∧ 131071 < 131072 ∧
      ∀ p, (runningGiven .decode (.read 0x3FFFF .one)).pend = some p → p.op = .decode) ∧
    ((0x3FFFC : Word).toNat = 0x20000 + 131068 ∧ 131068 % 4 = 0) := by
  refine ⟨by decide, by decide, ⟨by decide, by decide, ?_⟩, by decide, ⟨by decide, by decide, ?_⟩, by decide⟩ <;>
    · intro p h
      cases h
      rfl

theorem witness_ViolationEffects :
    ¬ WritePermitted (0x20 : Word).toNat .four ∧ ¬ WritePermitted (0x4000 : Word).toNat .one ∧
    ¬ WritePermitted (0x10000 : Word).toNat .four ∧ ¬ WritePermitted (0x0C : Word).toNat .four ∧
    ¬ ReadPermitted (0x20 : Word).toNat .four ∧ ¬ ReadPermitted (0x1FFF : Word).toNat .one ∧
    ¬ ReadPermitted (0x40000 : Word).toNat .four ∧ ¬ ReadPermitted (0x2000 : Word).toNat .two ∧
    ¬ ReadPermitted (0x3FFE : Word).toNat .four := by
  refine ⟨?_, ?_, ?_, ?_, ?_, ?_, ?_, ?_, ?_⟩ <;> simp only [WritePermitted, ReadPermitted] <;> decide

theorem witness_PermittedReadsHaveNoEffect :
    (given (.read 0x1C .four)).inputs = .host (.read 0x1C .four) :: [] ∧ ReadPermitted (0x1C : Word).toNat .four ∧
    ReadPermitted (0x3FFFF : Word).toNat .one := by
  unfold ReadPermitted; decide

theorem witness_BusyWritesDropped :
    (runningGiven .write (.write 0x8 .four 1)).inputs = .host (.write 0x8 .four 1) :: [] ∧
    (runningGiven .write (.write 0x8 .four 1)).pend ≠ none ∧ WritePermitted (0x8 : Word).toNat .four ∧
    (0x8 : Word).toNat ≠ 0x04 ∧ (0x8 : Word).toNat ≠ 0x1C ∧
    WritePermitted (0x0 : Word).toNat .four ∧ WritePermitted (0x3FFF : Word).toNat .one := by
  unfold WritePermitted; decide

theorem witness_HiddenReadsDraw :
    ((runningGiven .decode (.read 0x1FFFF .one)).inputs = .host (.read 0x1FFFF .one) :: [] ∧
      (runningGiven .decode (.read 0x1FFFF .one)).pend = some ⟨.decode, 0⟩ ∧
      ReadPermitted (0x1FFFF : Word).toNat .one ∧ 0x10000 ≤ (0x1FFFF : Word).toNat ∧
      (0x1FFFF : Word).toNat ≤ 0x1FFFF ∧ Op.decode ≠ Op.write) ∧
    ((runningGiven .extract (.read 0x20000 .four)).inputs = .host (.read 0x20000 .four) :: [] ∧
      (runningGiven .extract (.read 0x20000 .four)).pend = some ⟨.extract, 0⟩ ∧
      ReadPermitted (0x20000 : Word).toNat .four ∧ 0x20000 ≤ (0x20000 : Word).toNat ∧
      (0x20000 : Word).toNat ≤ 0x3FFFF ∧ Op.extract ≠ Op.decode) := by
  unfold ReadPermitted; decide

theorem witness_IdleKeepsState :
    State.reset.pend = none ∧ State.reset.inputs = [] ∧
    ({ State.reset with inputs := [.engine] } : State).inputs = .engine :: [] := by decide

theorem witness_ResetRegisterValues :
    ({ running .write 0 with inputs := [.reset] } : State).inputs = .reset :: [] := by decide

/-- The invariant holds of a block with a command pending: the premise of StepKeepsInv, InvStatesNeverStop,
PendingCommandCompletes and ResetKeepsOrRedrawsRam. -/
theorem witness_Inv :
    (running .extract 0).Inv ∧ ({ running .extract 0 with inputs := [.reset] } : State).Inv ∧
    step (running .extract 0) = .next (raiseError .invalidBankCount (running .extract 0)) := by
  refine ⟨?_, ?_, rfl⟩ <;> constructor <;>
    first | decide | (intro h; exact absurd h (by decide))

theorem witness_HazIsSticky :
    step { given (.write 0x4 .four 0x6) with haz := true } =
      .next { given (.write 0x4 .four 0x6) with haz := true, inputs := [] } ∧
    (∀ w rest, (given (.write 0x4 .four 0x6)).inputs = .host (.write 0x00000004 .four w) :: rest →
      w.getLsbD 10 = false) ∧
    (∀ rest, (given (.write 0x4 .four 0x6)).inputs ≠ .reset :: rest) := by
  refine ⟨rfl, fun w rest h => ?_, fun rest h => ?_⟩
  · cases h; decide
  · cases h

theorem witness_OnlyHostWritesTile :
    step (given (.write 0x1FFF .one 5)) = .next (flagHazard { given (.write 0x1FFF .one 5) with inputs := [] }) ∧
    (∀ a n v rest, (given (.write 0x1FFF .one 5)).inputs = .host (.write a n v) :: rest →
      a.toNat < 0x2000 ∨ 0x3FFF < a.toNat) := by
  refine ⟨rfl, fun a n v rest h => ?_⟩
  cases h; decide

theorem witness_OnlyDecodeWritesFb :
    step (running .write 0) = .next (raiseError .noGrid (running .write 0)) ∧
    (∀ p, (running .write 0).pend = some p → p.op = .write) ∧
    (∃ tr rest, (runningGiven .decode (.read 0x4 .four)).inputs = .host tr :: rest) := by
  refine ⟨rfl, fun p h => ?_, ⟨_, _, rfl⟩⟩
  cases h; rfl

theorem witness_OnlyWriteWritesOut :
    step (running .decode 0) = .next (raiseError .invalidBankCount (running .decode 0)) ∧
    (∀ p, (running .decode 0).pend = some p → p.op = .decode) ∧
    (∃ tr rest, (runningGiven .write (.read 0x4 .four)).inputs = .host tr :: rest) := by
  refine ⟨rfl, fun p h => ?_, ⟨_, _, rfl⟩⟩
  cases h; rfl

theorem witness_OutCapAndInLenKept :
    step (running .decode 0) = .next (raiseError .invalidBankCount (running .decode 0)) ∧
    (∀ v rest, (running .decode 0).inputs ≠ .host (.write 0x00000008 .four v) :: rest) ∧
    (∀ rest, (running .decode 0).inputs ≠ .reset :: rest) :=
  ⟨rfl, fun _ _ h => (by cases h), fun _ h => (by cases h)⟩

/-- The flag is 0 before and 1 after: DECODE raises GRID_VALID, WRITE raises OUT_VALID. -/
theorem witness_ValidityRisesAtCompletion :
    (step (running .decode 8192) = .next (completeOk (storeGrid 16 (running .decode 8192))) ∧
      (running .decode 8192).gridValid = false ∧
      (completeOk (storeGrid 16 (running .decode 8192))).gridValid = true) ∧
    (step (writing 65590) = .next (completeOk (storeFile (writing 65590))) ∧
      (writing 65590).outValid = false ∧ (completeOk (storeFile (writing 65590))).outValid = true) := by
  refine ⟨⟨?_, rfl, rfl⟩, ⟨?_, rfl, rfl⟩⟩
  · show execDecode (running .decode 8192) = _
    rw [execDecode, Laws.runCommand_pending _ _ _ 8192 rfl, Laws.decodePhase_eq, if_neg (by decide),
      if_neg (by decide), finish]
  · show execWrite (writing 65590) = _
    rw [execWrite, Laws.runCommand_pending _ _ _ 0 rfl, Laws.writePhase_ok _ rfl (by decide) (by decide), finish]

theorem witness_CommandPseudoInstructionsRun :
    State.reset.pend = none ∧
    (given (.write 0x0 .four 0x3)).inputs = scriptInputs 1 Pseudo.extract.expand ++ [] ∧
    (given (.write 0x0 .four 0x0)).inputs = scriptInputs 1 Pseudo.nop.expand ++ [] := by decide

theorem witness_SetLenAndClearScripts :
    ((given (.write 0x8 .four 8192)).pend = none ∧
      (given (.write 0x8 .four 8192)).inputs = scriptInputs 1 (Pseudo.setLen 8192).expand ++ []) ∧
    (given (.write 0x4 .four 0x406)).inputs = scriptInputs 1 Pseudo.clear.expand ++ [] := by decide

end Sys2Proof.Tests
end

