-- ==== Sys2Proof/Proofs/Scope.lean ====
section
/-! The scope chapter (00_scope.md): the integer square root of R10, and the palette of R7 with the words a DECODE leaves
in FB (40_decode.md R117). -/

namespace Sys2Proof.Proofs
open Sys2Proof.Machine Sys2Proof.Laws

/-! ### The integer square root (R10) -/

/-- Settles O18: the search finds a root, and the bound `n` it starts from is no smaller than any root. -/
theorem isqrtIsGreatestRoot : Obligations.IsqrtIsGreatestRoot := fun n =>
  ⟨isqrtUpTo_le n n, fun s hs => le_isqrtUpTo n n s hs ((Nat.le_mul_self s).trans hs)⟩

/-! ### The palette (R7) -/

/-- A palette word is a 24-bit colour, as a number. -/
theorem palette_toNat (i : BitVec 2) :
    (Config.palette i).toNat = (Config.colourOrder (i.setWidth 24)).toNat :=
  BitVec.toNat_setWidth_of_le (by decide)

/-- R7 (b). -/
theorem palette_toNat_lt (i : BitVec 2) : (Config.palette i).toNat < 2 ^ 24 := by
  rw [palette_toNat]; exact BitVec.isLt _

/-- R7 (a): neither widening loses a bit, and the colour order is a permutation. -/
theorem palette_injective : Function.Injective Config.palette := by
  intro i j h
  have hcolour : Config.colourOrder (i.setWidth 24) = Config.colourOrder (j.setWidth 24) :=
    BitVec.eq_of_toNat_eq (by rw [← palette_toNat, ← palette_toNat, h])
  have hindex : i.setWidth 24 = j.setWidth 24 := Config.colourOrder.injective hcolour
  simpa using congrArg (BitVec.setWidth 2) hindex

/-! ### The words of a decoded grid (40_decode.md R117) -/

/-- A grid cell is a palette word, whatever the bank holds. -/
theorem exists_gridCell_eq_palette (bank : Nat → Byte) (n : Nat) : ∃ i, gridCell bank n = Config.palette i :=
  ⟨_, rfl⟩

/-- A pending DECODE of the one accepted length completes with the grid of side 16. -/
theorem exec_decode_complete (s : State) (h : s.pend = some ⟨.decode, 8192⟩) :
    exec .decode s = .next (completeOk (storeGrid 16 s)) := by
  rw [exec, execDecode, runCommand_pending _ _ _ _ h, decodePhase_eq, if_neg (by decide), if_neg (by decide), finish]

/-- Settles O19: R7 (a) and (b) of the palette, and every cell of the grid a DECODE stores goes through it. -/
theorem gridWordsArePaletteWords : Obligations.GridWordsArePaletteWords := by
  refine ⟨fun _ _ h => palette_injective h, palette_toNat_lt, fun s h => ⟨_, exec_decode_complete s h, fun n hn => ?_⟩⟩
  rw [completeOk_fb, storeGrid_fbWord s n hn]
  exact exists_gridCell_eq_palette s.tile.read n

end Sys2Proof.Proofs
end

