-- ==== Sys2Proof/Proofs/State.lean ====
section
/-! The state chapter (10_state.md): every step keeps the invariant, which steps change TILE, FB, OUT, OUT_CAP, IN_LEN
and the validity flags, and the register window. -/

namespace Sys2Proof.Proofs
open Sys2Proof.Machine Sys2Proof.Laws

variable {s t : State}

/-! ### The invariant under each update of the state -/

theorem inv_inputs (h : s.Inv) (rest : List Input) : ({ s with inputs := rest } : State).Inv := { h with }

theorem inv_flagHazard (h : s.Inv) : (flagHazard s).Inv := { h with }

theorem inv_answer (h : s.Inv) (v : Word) : (answer v s).Inv := { h with }

theorem inv_answerDraw (h : s.Inv) (w : Width) : (answerDraw w s).Inv :=
  { inv_answer h (drawValue w s) with
    draws_given := by
      obtain ⟨htile, hfb, hout⟩ := h.draws_given
      exact ⟨Nat.lt_succ_of_lt htile, Nat.lt_succ_of_lt hfb, Nat.lt_succ_of_lt hout⟩ }

theorem inv_setInLen (h : s.Inv) (hidle : s.pend = none) (v : Word) : (setInLen v s).Inv :=
  { h with latched := fun p hp => by simp [hidle] at hp }

theorem inv_storeTile (h : s.Inv) (o : Nat) (bs : List Byte) (hb : o + bs.length ≤ 8192) : (storeTile o bs s).Inv :=
  { h with tile_wf := Ram_wf_storeBytes 8192 s.tile o bs h.tile_wf hb }

/-- ERR and ERRCODE are cleared together (R25). -/
theorem inv_acknowledge (h : s.Inv) (w : Word) : (acknowledge w s).Inv :=
  { h with
    err_iff := by rw [acknowledge_err, acknowledge_errcode]; split; exacts [by simp, h.err_iff]
    not_done_err := fun ⟨hd, he⟩ => by simp at hd he; exact h.not_done_err ⟨hd.2, he.2⟩
    errcode_range := by rw [acknowledge_errcode]; split; exacts [by decide, h.errcode_range]
    busy_clear := fun hp => by simp [h.busy_clear hp] }

theorem inv_illegalCmd (h : s.Inv) (hidle : s.pend = none) : (illegalCmd s).Inv :=
  { h with
    err_iff := by simp
    not_done_err := by simp
    errcode_range := by simp
    busy_clear := fun hp => absurd hidle hp }

/-- Acceptance drops the file, and the grid too if the command writes FB (42_sequencer.md R172). -/
theorem inv_accept (h : s.Inv) (op : Op) : (accept op s).Inv :=
  { h with
    err_iff := by simp
    not_done_err := by simp
    errcode_range := by simp
    busy_clear := by simp
    latched := by simp
    busy_invalid := by simp +contextual
    width_eq := by cases hw : op.writesFb <;> simp [hw, h.width_eq]
    height_eq := by cases hw : op.writesFb <;> simp [hw, h.height_eq]
    outLen_eq := by simp
    outValid_grid := by simp
    grid := fun hg => h.grid (by simp at hg; exact hg.2)
    file := by simp }

@[simp] theorem Ram_drawNo_unspecified (n : Nat) : (Ram.unspecified n).drawNo = n := rfl

/-- A reset clears every flag; a RAM it interrupts takes one of two draws not given out before. -/
theorem inv_resetStep (h : s.Inv) : (resetStep s).Inv where
  err_iff := by simp
  not_done_err := by simp
  errcode_range := by simp
  busy_clear := by simp
  latched := by simp
  busy_invalid := by simp
  width_eq := by simp
  height_eq := by simp
  outLen_eq := by simp
  outValid_grid := by simp
  grid := by simp
  file := by simp
  tile_wf := h.tile_wf
  fb_wf := by rw [resetStep_fb]; split; exacts [Ram_wf_unspecified _ _, h.fb_wf]
  out_wf := by rw [resetStep_out]; split; exacts [Ram_wf_unspecified _ _, h.out_wf]
  draws_given := by
    have hgiven := h.draws_given
    simp only [resetStep_tile, resetStep_fb, resetStep_out, resetStep_draws, apply_ite Ram.drawNo,
      Ram_drawNo_unspecified]
    split <;> split <;> omega
  draws_apart := by
    have hgiven := h.draws_given
    have hapart := h.draws_apart
    simp only [resetStep_tile, resetStep_fb, resetStep_out, apply_ite Ram.drawNo, Ram_drawNo_unspecified]
    split <;> split <;> omega

/-! ### The invariant under a completion -/

/-- While a command is pending no error is recorded, so success leaves DONE alone (60_exceptions.md R195). -/
theorem inv_completeOk (h : s.Inv) (hbusy : s.pend ≠ none) : (completeOk s).Inv :=
  { h with
    not_done_err := by simp [h.busy_clear hbusy]
    busy_clear := by simp
    latched := by simp
    busy_invalid := by simp }

theorem ErrorCode_code_range (e : ErrorCode) (he : e ≠ .nonSquareTileArrangement) :
    e.code ≠ 0 ∧ e.code.toNat ≤ 6 ∧ e.code ≠ 3 := by
  cases e
  case nonSquareTileArrangement => exact absurd rfl he
  all_goals decide

/-- While a command is pending DONE is 0, so an error leaves ERR alone (60_exceptions.md R196). -/
theorem inv_raiseError (h : s.Inv) (hbusy : s.pend ≠ none) (e : ErrorCode) (he : e ≠ .nonSquareTileArrangement) :
    (raiseError e s).Inv :=
  { h with
    err_iff := by simpa using (ErrorCode_code_range e he).1
    not_done_err := by simp [h.busy_clear hbusy]
    errcode_range := (ErrorCode_code_range e he).2
    busy_clear := by simp
    latched := by simp
    busy_invalid := by simp }

/-- A grid stored in an idle block without a file. -/
theorem inv_storeGrid (h : s.Inv) (hidle : s.pend = none) (hfile : s.outValid = false) : (storeGrid 16 s).Inv :=
  { h with
    busy_invalid := fun p hp => by simp [hidle] at hp
    width_eq := rfl
    height_eq := rfl
    outValid_grid := by simp [hfile]
    grid := fun _ => holdsGrid_storeGrid s
    file := by simp [hfile]
    fb_wf := wf_storeGrid_fb s h.fb_wf
    draws_given := by simpa using h.draws_given
    draws_apart := by simpa using h.draws_apart }

/-- A valid grid is 128 x 128 (R27, R28). -/
theorem inv_size_of_gridValid (h : s.Inv) (hg : s.gridValid = true) : s.width = 128 ∧ s.height = 128 := by
  have hw : s.width = 128 := by rw [h.width_eq, if_pos hg]
  exact ⟨hw, h.height_eq.trans hw⟩

/-- The file of a valid grid stored in an idle block with room for it. -/
theorem inv_storeFile (h : s.Inv) (hidle : s.pend = none) (hg : s.gridValid = true)
    (hroom : s.fileSize ≤ s.outCap.val) : (storeFile s).Inv := by
  obtain ⟨hw, hh⟩ := inv_size_of_gridValid h hg
  have hsize : s.fileSize = 65590 := fileSize_of_128 s hw hh
  exact { h with
    busy_invalid := fun p hp => by simp [hidle] at hp
    outLen_eq := by simp [hsize]
    outValid_grid := fun _ => ⟨hg, hsize ▸ hroom⟩
    file := fun _ => holdsFile_storeFile s hw hh
    out_wf := wf_storeFile_out s h.out_wf hroom }

/-- The end of a command writes DONE, ERR, ERRCODE and PEND only, so its last phase's stores come as well after it: the
invariant is then kept by the end and by each store, one at a time. -/
theorem engineChange_inv (h : s.Inv) (hc : EngineChange s t) : t.Inv := by
  have busy : ∀ {p}, s.pend = some p → s.pend ≠ none := fun hp => by simp [hp]
  have noFile : ∀ {p}, s.pend = some p → s.outValid = false := fun hp => (h.busy_invalid _ hp).1
  cases hc with
  | idle => exact h
  | decoded hp =>
    show (storeGrid 16 (completeOk s)).Inv
    exact inv_storeGrid (inv_completeOk h (busy hp)) rfl (noFile hp)
  | written _ hp hg hroom =>
    show (storeFile (completeOk s)).Inv
    exact inv_storeFile (inv_completeOk h (busy hp)) rfl hg hroom
  | extracted hp hroom =>
    show (storeFile (storeGrid 16 (completeOk s))).Inv
    refine inv_storeFile (inv_storeGrid (inv_completeOk h (busy hp)) rfl (noFile hp)) rfl rfl ?_
    rw [fileSize_storeGrid]; exact hroom
  | failed _ e hp he => exact inv_raiseError h (busy hp) e he
  | extractFailed hp =>
    show (storeGrid 16 (raiseError .ioFailure s)).Inv
    exact inv_storeGrid (inv_raiseError h (busy hp) _ (by decide)) rfl (noFile hp)

/-- Settles O47: every step is one of the updates above, made after its input is taken off. -/
theorem stepKeepsInv : Obligations.StepKeepsInv := by
  intro s t h hstep
  cases stepChange_of_step hstep with
  | engine rest _ _ hc => exact engineChange_inv (inv_inputs h rest) hc
  | reset rest => exact inv_resetStep (inv_inputs h rest)
  | read rest => exact inv_answer (inv_inputs h rest) _
  | draw rest => exact inv_answerDraw (inv_inputs h rest) _
  | violatingRead rest => exact inv_answer (inv_flagHazard (inv_inputs h rest)) 0
  | hazard rest => exact inv_flagHazard (inv_inputs h rest)
  | same rest => exact inv_inputs h rest
  | illegal rest _ _ hidle => exact inv_illegalCmd (inv_inputs h rest) hidle
  | accepted rest _ op => exact inv_accept (inv_inputs h rest) op
  | acknowledged rest v => exact inv_acknowledge (inv_inputs h rest) v
  | lengthSet rest v _ hidle => exact inv_setInLen (inv_inputs h rest) hidle v
  | tileStored rest _ _ _ o bs _ _ _ _ hb => exact inv_storeTile (inv_inputs h rest) o bs hb

/-! ### What the engine leaves unchanged -/

/-- No command writes TILE, OUT_CAP or IN_LEN (R20, R32). -/
theorem engineChange_frame (hc : EngineChange s t) : t.tile = s.tile ∧ t.outCap = s.outCap ∧ t.inLen = s.inLen := by
  cases hc <;> exact ⟨rfl, rfl, rfl⟩

/-- Only DECODE and EXTRACT write FB (R20, R33). -/
theorem engineChange_fb (hc : EngineChange s t) (hw : ∀ p, s.pend = some p → p.op.writesFb = false) : t.fb = s.fb := by
  cases hc with
  | decoded hp | extracted hp | extractFailed hp => cases hw _ hp
  | idle | written | failed => rfl

/-- Only WRITE and EXTRACT write OUT (R20, R34). -/
theorem engineChange_out (hc : EngineChange s t) (hw : ∀ p, s.pend = some p → p.op.writesOut = false) :
    t.out = s.out := by
  cases hc with
  | written _ hp | extracted hp => cases hw _ hp
  | idle | decoded | failed | extractFailed => rfl

/-- GRID_VALID rises only at the end of a DECODE or EXTRACT of 8192 bytes (R24, R38). -/
theorem engineChange_gridValid_rises (hc : EngineChange s t) (h0 : s.gridValid = false) (h1 : t.gridValid = true) :
    (s.pend = some ⟨.decode, 8192⟩ ∨ s.pend = some ⟨.extract, 8192⟩) ∧ t.pend = none := by
  cases hc with
  | decoded hp => exact ⟨.inl hp, rfl⟩
  | extracted hp | extractFailed hp => exact ⟨.inr hp, rfl⟩
  | idle | written | failed => exact absurd h1 (by simp [h0])

/-- OUT_VALID rises only at the successful end of a WRITE or EXTRACT (R24, R38). -/
theorem engineChange_outValid_rises (hc : EngineChange s t) (h0 : s.outValid = false) (h1 : t.outValid = true) :
    (∃ len, s.pend = some ⟨.write, len⟩ ∨ s.pend = some ⟨.extract, len⟩) ∧ t.pend = none ∧ t.done = true := by
  cases hc with
  | written len hp => exact ⟨⟨len, .inl hp⟩, rfl, rfl⟩
  | extracted hp => exact ⟨⟨_, .inr hp⟩, rfl, rfl⟩
  | idle | decoded | failed | extractFailed => exact absurd h1 (by simp [h0])

/-! ### What a reset leaves unchanged (70_reset_and_hazards.md R222) -/

theorem resetStep_fb_kept (hw : ∀ p, s.pend = some p → p.op.writesFb = false) : (resetStep s).fb = s.fb := by
  cases hp : s.pend <;> simp_all [State.fbInterrupted]

theorem resetStep_out_kept (hw : ∀ p, s.pend = some p → p.op.writesOut = false) : (resetStep s).out = s.out := by
  cases hp : s.pend <;> simp_all [State.outInterrupted]

/-! ### What a step leaves unchanged -/

/-- A turn of the engine, by its own input or after the last one, is no host access. -/
theorem not_host_of_engine {rest : List Input} (hi : s.inputs = .engine :: rest ∨ s.inputs = [] ∧ rest = []) :
    ¬ ∃ tr rest, s.inputs = .host tr :: rest := by
  rintro ⟨tr, rest', h⟩
  simp [h] at hi

theorem not_host_of_reset {rest : List Input} (hi : s.inputs = .reset :: rest) :
    ¬ ∃ tr rest, s.inputs = .host tr :: rest := by
  rintro ⟨tr, rest', h⟩
  simp [h] at hi

/-- Settles O51: the one change of TILE is a store of the host's, at an address of the window. -/
theorem onlyHostWritesTile : Obligations.OnlyHostWritesTile := by
  intro s t hstep hout a
  cases stepChange_of_step hstep with
  | engine _ _ _ hc => rw [(engineChange_frame hc).1]
  | tileStored rest b v n _ _ hi _ hlo hhi => exact absurd (hout b n v rest hi) (by omega)
  | _ => rfl

/-- Settles O52: the engine and a reset change FB only with a command that writes FB pending, and the host never. -/
theorem onlyDecodeWritesFb : Obligations.OnlyDecodeWritesFb := by
  intro s t hstep hcase a
  have unwritten (hwrite : ∀ p, s.pend = some p → p.op = .write) : ∀ p, s.pend = some p → p.op.writesFb = false :=
    fun p hp => by rw [hwrite p hp]; rfl
  suffices hfb : t.fb = s.fb by rw [hfb]
  cases stepChange_of_step hstep with
  | engine _ _ hi hc =>
    have hkept := engineChange_fb hc
    exact hkept (unwritten (hcase.resolve_right (not_host_of_engine hi)))
  | reset _ hi => exact resetStep_fb_kept (unwritten (hcase.resolve_right (not_host_of_reset hi)))
  | _ => rfl

/-- Settles O53: the engine and a reset change OUT only with a command that writes OUT pending, and the host never. -/
theorem onlyWriteWritesOut : Obligations.OnlyWriteWritesOut := by
  intro s t hstep hcase a
  have unwritten (hdecode : ∀ p, s.pend = some p → p.op = .decode) : ∀ p, s.pend = some p → p.op.writesOut = false :=
    fun p hp => by rw [hdecode p hp]; rfl
  suffices hout : t.out = s.out by rw [hout]
  cases stepChange_of_step hstep with
  | engine _ _ hi hc =>
    have hkept := engineChange_out hc
    exact hkept (unwritten (hcase.resolve_right (not_host_of_engine hi)))
  | reset _ hi => exact resetStep_out_kept (unwritten (hcase.resolve_right (not_host_of_reset hi)))
  | _ => rfl

/-- Settles O54: only a write to IN_LEN and a reset touch IN_LEN, and nothing touches OUT_CAP. -/
theorem outCapAndInLenKept : Obligations.OutCapAndInLenKept := by
  intro s t hstep
  cases stepChange_of_step hstep with
  | engine _ _ _ hc =>
    obtain ⟨-, hcap, hlen⟩ := engineChange_frame hc
    exact ⟨hcap, fun _ _ => hlen⟩
  | reset rest hi => exact ⟨rfl, fun _ hreset => absurd hi (hreset rest)⟩
  | lengthSet rest v hi => exact ⟨rfl, fun hwrite _ => absurd hi (hwrite v rest)⟩
  | _ => exact ⟨rfl, fun _ _ => rfl⟩

/-- Settles O55: a step that is not the engine's raises neither flag. -/
theorem validityRisesAtCompletion : Obligations.ValidityRisesAtCompletion := by
  intro s t hstep
  cases stepChange_of_step hstep with
  | engine _ _ _ hc =>
    have hgrid := engineChange_gridValid_rises hc
    have hout := engineChange_outValid_rises hc
    exact ⟨hgrid, hout⟩
  | _ => constructor <;> (intro h0 h1; exact absurd h1 (by simp [h0]))

/-! ### A host access that names a register or a RAM -/

/-- A read of a register is never hidden (20_memory.md R60). -/
@[simp] theorem hides_reg (s : State) (r : Reg) : s.hides (.reg r) = false := by
  cases hp : s.pend <;> simp [State.hides, hp, Target.hiddenBy]

/-- A read that nothing hides returns the stored value, with no other effect (20_memory.md R61). -/
theorem step_read_visible {a : Word} {n : Size} {rest : List Input} (hi : s.inputs = .host (.read a n) :: rest)
    {tgt : Target} (hr : resolve a n = some tgt) (hv : s.hides tgt = false) :
    step s = .next (answer (readTarget tgt { s with inputs := rest }) { s with inputs := rest }) := by
  have hv' : ({ s with inputs := rest } : State).hides tgt = false := hv
  simp [step_read s a n rest hi, hostRead, hr, hv']

/-- A permitted write that is not dropped has its own effect (60_exceptions.md R194). -/
theorem step_write_performed {a v : Word} {n : Size} {rest : List Input} (hi : s.inputs = .host (.write a n v) :: rest)
    {tgt : Target} (hr : resolve a n = some tgt) (hw : tgt.writable = true)
    (hfree : tgt.lockedWhileBusy = true → s.pend = none) :
    step s = performWrite tgt v { s with inputs := rest } := by
  have hnot : ¬ (s.busy = true ∧ tgt.lockedWhileBusy = true) := fun ⟨hb, hl⟩ => by
    simp [State.busy, hfree hl] at hb
  simp only [step_write s a v n rest hi, hostWrite, hr]
  exact (if_neg (by simp [hw])).trans (if_neg hnot)

/-- A write to what the host may not write only sets HAZ (20_memory.md R58). -/
theorem step_write_unwritable {a v : Word} {n : Size} {rest : List Input}
    (hi : s.inputs = .host (.write a n v) :: rest) {tgt : Target} (hr : resolve a n = some tgt)
    (hw : tgt.writable = false) : step s = .next (flagHazard { s with inputs := rest }) := by
  simp [step_write s a v n rest hi, hostWrite, hr, hw]

/-- A word read of a register returns its value, with no other effect (R22). -/
theorem step_read_reg {a : Word} {rest : List Input} (hi : s.inputs = .host (.read a .four) :: rest) {r : Reg}
    (hr : resolve a .four = some (.reg r)) :
    step s = .next { s with inputs := rest, answers := readReg r s :: s.answers } := by
  rw [step_read_visible hi hr (hides_reg s r)]
  cases r <;> rfl

/-! ### STATUS (R24, R25) -/

theorem getLsbD_flagBit (b : Bool) (i j : Nat) (hi : i < 32) : (flagBit b i).getLsbD j = (b && decide (i = j)) := by
  cases b with
  | false => simp [flagBit]
  | true =>
    show (BitVec.twoPow 32 i).getLsbD j = _
    simp [hi]

/-- Every bit of STATUS (R24). -/
theorem getLsbD_statusWord (s : State) (i : Nat) (hi : i < 32) :
    (statusWord s).getLsbD i =
      (s.busy && decide (0 = i) || s.done && decide (1 = i) || s.err && decide (2 = i)
        || decide (4 ≤ i) && s.errcode.getLsbD (i - 4)
        || s.gridValid && decide (8 = i) || s.outValid && decide (9 = i) || s.haz && decide (10 = i)) := by
  have herr : (s.errcode.setWidth 32 <<< 4).getLsbD i = (decide (4 ≤ i) && s.errcode.getLsbD (i - 4)) := by
    have hlt : i - 4 < 32 := by omega
    simp only [BitVec.getLsbD_shiftLeft, BitVec.getLsbD_setWidth, hi, hlt, decide_true, Bool.true_and, ← not_lt,
      decide_not]
  simp only [statusWord, BitVec.getLsbD_or, getLsbD_flagBit, herr, Nat.reduceLT]

/-- Settles O34: the read answers `statusWord`, whose every bit is known. -/
theorem statusReadLayout : Obligations.StatusReadLayout := by
  intro s rest hi
  have bit := getLsbD_statusWord s
  refine ⟨statusWord s, step_read_reg hi (r := .status) rfl, ?_, ?_, ?_, ?_, ?_, ?_, ?_, ?_, ?_⟩
  · rw [bit 0 (by decide)]; simp [State.busy]
  · rw [bit 1 (by decide)]; simp
  · rw [bit 2 (by decide)]; simp
  · rw [bit 3 (by decide)]; simp
  · refine BitVec.eq_of_getLsbD_eq fun i hi4 => ?_
    have hflag (m : Nat) (hm : m < 4 ∨ 8 ≤ m) : m ≠ 4 + i := by omega
    rw [BitVec.getLsbD_extractLsb', bit _ (by omega)]
    simp [hi4, hflag]
  · rw [bit 8 (by decide)]; simp
  · rw [bit 9 (by decide)]; simp
  · rw [bit 10 (by decide)]; simp
  · refine BitVec.eq_of_getLsbD_eq fun i hi21 => ?_
    have hflag (m : Nat) (hm : m < 11) : m ≠ 11 + i := by omega
    have hcode : s.errcode.getLsbD (11 + i - 4) = false := BitVec.getLsbD_of_ge _ _ (by omega)
    rw [BitVec.getLsbD_extractLsb', bit _ (by omega), hcode]
    simp [hflag]

/-- Settles O35: a write to STATUS is never dropped, and its effect is the acknowledgement. -/
theorem statusWriteClears : Obligations.StatusWriteClears := by
  intro s w rest hi
  exact step_write_performed hi (tgt := .reg .status) rfl rfl nofun

/-! ### The other registers (R22, R23, R26 to R31) -/

/-- Settles O36: each address names its register, whose read, write or read-only violation is the rule above. -/
theorem registerAccesses : Obligations.RegisterAccesses := by
  refine ⟨fun s a v rest hi hav => ?_, fun s v rest hi hidle => ?_, fun s v rest hi => ?_, fun s a v rest hi ha => ?_⟩
  · obtain ⟨r, hr, rfl⟩ : ∃ r, resolve a .four = some (.reg r) ∧ v = readReg r s := by
      rcases hav with ⟨rfl, rfl⟩ | ⟨rfl, rfl⟩ | ⟨rfl, rfl⟩ | ⟨rfl, rfl⟩ | ⟨rfl, rfl⟩ | ⟨rfl, rfl⟩ | ⟨rfl, rfl⟩
      exacts [⟨.cmd, rfl, rfl⟩, ⟨.inLen, rfl, rfl⟩, ⟨.width, rfl, rfl⟩, ⟨.height, rfl, rfl⟩, ⟨.outLen, rfl, rfl⟩,
        ⟨.outCap, rfl, rfl⟩, ⟨.reserved, rfl, rfl⟩]
    exact step_read_reg hi hr
  · exact step_write_performed hi (tgt := .reg .inLen) rfl rfl fun _ => hidle
  · exact step_write_performed hi (tgt := .reg .reserved) rfl rfl nofun
  · obtain ⟨r, hr, hro⟩ : ∃ r, resolve a .four = some (.reg r) ∧ (Target.reg r).writable = false := by
      rcases ha with rfl | rfl | rfl | rfl
      exacts [⟨.width, rfl, rfl⟩, ⟨.height, rfl, rfl⟩, ⟨.outLen, rfl, rfl⟩, ⟨.outCap, rfl, rfl⟩]
    exact step_write_unwritable hi hr hro

end Sys2Proof.Proofs
end

