-- ==== Sys2Proof/Proofs/Memory.lean ====
section
/-! The memory chapter (20_memory.md): the accesses of the RAM windows, the violations of R58, and what a pending
command drops (R59) or hides (R60). -/

namespace Sys2Proof.Proofs
open Sys2Proof.Machine Sys2Proof.Laws

variable {s : State} {a v : Word} {n : Size} {rest : List Input} {tgt : Target} {m : RamName} {o : Nat}

/-! ### What an address of a RAM window names (R51, R55 to R57) -/

/-- A RAM window lies above the register window. -/
theorem not_regWindow_of_ramAt {b : Nat} (hb : ramAt b = some (m, o)) : ¬ b < 0x20 := by
  intro hreg
  rw [ramAt_unmapped b (by omega) (by omega) (by omega)] at hb
  cases hb

/-- A byte access of a RAM window names that byte. -/
theorem resolve_byte (hb : ramAt a.toNat = some (m, o)) : resolve a .one = some (.ram m .byte o) :=
  resolve_of_ramAt a .one (not_regWindow_of_ramAt hb) m o hb

/-- An aligned word access of a RAM window names that word. -/
theorem resolve_word (hb : ramAt a.toNat = some (m, o)) (h4 : o % 4 = 0) : resolve a .four = some (.ram m .word o) := by
  rw [resolve_of_ramAt a .four (not_regWindow_of_ramAt hb) m o hb]
  simp [ramWidth, h4]

/-! ### The bytes of an assembled word (R53) -/

theorem byteOf_assemble_word (f : Nat → Byte) {i : Nat} (hi : i < 4) : byteOf (assemble .word f) i = f i := by
  rw [assemble, byteOf_wordOfBytes]
  obtain rfl | rfl | rfl | rfl : i = 0 ∨ i = 1 ∨ i = 2 ∨ i = 3 := by omega
  all_goals rfl

theorem readWord_eq_assemble (r : Ram) (b : Nat) : r.readWord b = assemble .word fun i => r.read (b + i) := rfl

/-- Byte `o % 4` of FB's word `o / 4` is the byte at offset `o` (R51). -/
theorem byteOf_fbWord (fb : Ram) (o : Nat) : byteOf (fbWord fb (o / 4)) (o % 4) = fb.read o := by
  rw [fbWord, readWord_eq_assemble, byteOf_assemble_word _ (Nat.mod_lt o (by decide)), Nat.div_add_mod]

/-! ### Writes to TILE (R55) -/

/-- A write to TILE while idle stores its bytes, and does nothing else. -/
theorem step_write_tile {w : Width} (hi : s.inputs = .host (.write a n v) :: rest) (hidle : s.pend = none)
    (hr : resolve a n = some (.ram .tile w o)) :
    step s = .next { s with inputs := rest, tile := s.tile.storeBytes o (storedBytes w v) } :=
  step_write_performed hi hr rfl fun _ => hidle

/-- Settles O37: every byte of TILE after the store of the written bytes. -/
theorem tileWrites : Obligations.TileWrites := by
  refine ⟨fun s a v o rest hi hidle ha ho h4 => ?_, fun s a v o rest hi hidle ha ho => ?_⟩
  · refine ⟨_, step_write_tile hi hidle (resolve_word (ha ▸ ramAt_tile o ho) h4), fun b => ?_⟩
    rw [Ram_read_storeBytes, length_storedBytes_word]
    split
    · next hb => rw [storedBytes, getElem?_le32 v (b - o) (by omega)]; rfl
    · rfl
  · refine ⟨_, step_write_tile hi hidle (resolve_byte (ha ▸ ramAt_tile o ho)), fun b => ?_⟩
    rw [Ram_read_storeBytes, length_storedBytes_byte]
    by_cases hb : b = o
    · subst hb
      rw [if_pos (by omega), if_pos rfl, Nat.sub_self]; rfl
    · rw [if_neg (by omega), if_neg hb]

/-! ### Reads that nothing hides (R55 to R57, R61) -/

/-- What no pending command hides, nothing hides (R60). -/
theorem hides_eq_false (h : ∀ p, s.pend = some p → tgt.hiddenBy p.op = false) : s.hides tgt = false := by
  cases hp : s.pend with
  | none => simp [State.hides, hp]
  | some p => simpa [State.hides, hp] using h p hp

/-- TILE is readable while any command is pending (R55). -/
theorem hides_tile (w : Width) : s.hides (.ram .tile w o) = false := hides_eq_false fun _ _ => rfl

/-- WRITE does not hide FB. -/
theorem hides_fb (w : Width) (h : ∀ p, s.pend = some p → p.op = .write) : s.hides (.ram .fb w o) = false :=
  hides_eq_false fun p hp => by rw [h p hp]; rfl

/-- DECODE does not hide OUT. -/
theorem hides_out (w : Width) (h : ∀ p, s.pend = some p → p.op = .decode) : s.hides (.ram .out w o) = false :=
  hides_eq_false fun p hp => by rw [h p hp]; rfl

/-- A read of a RAM that nothing hides returns the bytes the host sees there, with no other effect (R61). -/
theorem step_read_ram {w : Width} (hi : s.inputs = .host (.read a n) :: rest)
    (hr : resolve a n = some (.ram m w o)) (hv : s.hides (.ram m w o) = false) :
    step s = .next { s with
      inputs := rest, answers := assemble w (fun i => hostByte m (o + i) s) :: s.answers } := by
  rw [step_read_visible hi hr hv]
  cases m <;> rfl

/-- Settles O38: each window's reads return `hostByte`, whose bytes the host's word is assembled from. -/
theorem ramReads : Obligations.RamReads := by
  refine ⟨fun s a o rest ha ho => ?_, fun s a o rest ha ho hp => ?_, fun s a o rest ha ho hp => ?_⟩
  · have hb : ramAt a.toNat = some (.tile, o) := ha ▸ ramAt_tile o ho
    exact ⟨fun hi => step_read_ram hi (resolve_byte hb) (hides_tile _),
      fun hi h4 => step_read_ram hi (resolve_word hb h4) (hides_tile _)⟩
  · have hb : ramAt a.toNat = some (.fb, o) := ha ▸ ramAt_fb o ho
    refine ⟨fun hi => ?_, fun hi h4 => ?_⟩
    · have hbyte : (fbWord s.fb (o / 4)).extractLsb' (8 * (o % 4)) 8 = s.fb.read o := byteOf_fbWord s.fb o
      rw [hbyte]
      exact step_read_ram hi (resolve_byte hb) (hides_fb _ hp)
    · rw [fbWord, show 4 * (o / 4) = o by omega]
      exact step_read_ram hi (resolve_word hb h4) (hides_fb _ hp)
  · have hb : ramAt a.toNat = some (.out, o) := ha ▸ ramAt_out o ho
    refine ⟨fun hi => ?_, fun hi h4 => ⟨_, step_read_ram hi (resolve_word hb h4) (hides_out _ hp), fun i hi4 => ?_⟩⟩
    · rw [step_read_ram hi (resolve_byte hb) (hides_out _ hp)]
      simp only [assemble, hostByte, Nat.add_zero]
      split <;> rfl
    · exact byteOf_assemble_word _ hi4

/-! ### Violations (R58) -/

/-- A violating write only sets HAZ. -/
theorem step_write_violation (hi : s.inputs = .host (.write a n v) :: rest) (hbad : ¬ WritePermitted a.toNat n) :
    step s = .next (flagHazard { s with inputs := rest }) := by
  cases hr : resolve a n with
  | none => simp [step_write s a v n rest hi, hostWrite, hr]
  | some t =>
    have hw : ¬ t.writable = true := fun hw => hbad ((writable_iff a n).1 ⟨t, hr, hw⟩)
    exact step_write_unwritable hi hr (by simpa using hw)

/-- A violating read returns 0 and sets HAZ. -/
theorem step_read_violation (hi : s.inputs = .host (.read a n) :: rest) (hbad : ¬ ReadPermitted a.toNat n) :
    step s = .next (violatingRead { s with inputs := rest }) := by
  simp [step_read s a n rest hi, hostRead, (resolve_eq_none_iff a n).2 hbad]

/-- Settles O39: an access outside the permitted ones names nothing, or nothing writable. -/
theorem violationEffects : Obligations.ViolationEffects :=
  ⟨fun _ _ _ _ _ hi hbad => step_write_violation hi hbad, fun _ _ _ _ hi hbad => step_read_violation hi hbad⟩

/-! ### Hidden reads (R60), and the effect of every permitted read (R61) -/

/-- A read that a pending command hides returns the next draw, with no other effect. -/
theorem step_read_hidden (hi : s.inputs = .host (.read a n) :: rest) (hr : resolve a n = some tgt)
    (hh : s.hides tgt = true) : step s = .next (answerDraw tgt.width { s with inputs := rest }) := by
  have hh' : ({ s with inputs := rest } : State).hides tgt = true := hh
  simp [step_read s a n rest hi, hostRead, hr, hh']

/-- Settles O40: a permitted read answers the stored value or a draw. -/
theorem permittedReadsHaveNoEffect : Obligations.PermittedReadsHaveNoEffect := by
  intro s a n rest hi hperm
  obtain ⟨t, hr⟩ : ∃ t, resolve a n = some t :=
    Option.ne_none_iff_exists'.1 fun hnone => (resolve_eq_none_iff a n).1 hnone hperm
  cases hh : s.hides t with
  | false => exact ⟨_, s.draws, step_read_visible hi hr hh⟩
  | true => exact ⟨_, s.draws + 1, step_read_hidden hi hr hh⟩

/-- Every command but WRITE writes FB (10_state.md R20). -/
theorem writesFb_iff (op : Op) : op.writesFb = true ↔ op ≠ .write := by cases op <;> decide

/-- Every command but DECODE writes OUT (10_state.md R20). -/
theorem writesOut_iff (op : Op) : op.writesOut = true ↔ op ≠ .decode := by cases op <;> decide

/-- An address of the FB window while FB is written, or of the OUT window while OUT is, names a hidden RAM. -/
theorem ramAt_hidden {op : Op}
    (h : 0x10000 ≤ a.toNat ∧ a.toNat ≤ 0x1FFFF ∧ op ≠ .write ∨ 0x20000 ≤ a.toNat ∧ a.toNat ≤ 0x3FFFF ∧ op ≠ .decode) :
    ∃ m o, ramAt a.toNat = some (m, o) ∧ o % 4 = a.toNat % 4 ∧ ∀ w, (Target.ram m w o).hiddenBy op = true := by
  rcases h with ⟨hlo, hhi, hop⟩ | ⟨hlo, hhi, hop⟩
  · obtain ⟨o, ho⟩ := Nat.exists_eq_add_of_le hlo
    exact ⟨.fb, o, ho ▸ ramAt_fb o (by omega), by omega, fun _ => (writesFb_iff op).2 hop⟩
  · obtain ⟨o, ho⟩ := Nat.exists_eq_add_of_le hlo
    exact ⟨.out, o, ho ▸ ramAt_out o (by omega), by omega, fun _ => (writesOut_iff op).2 hop⟩

/-- Settles O42: the address names a hidden byte or word, and its read is the draw. -/
theorem hiddenReadsDraw : Obligations.HiddenReadsDraw := by
  intro s a n p rest hi hp hperm hwin
  obtain ⟨m, o, hb, halign, hop⟩ := ramAt_hidden hwin
  have hh (w : Width) : s.hides (.ram m w o) = true := by simpa [State.hides, hp] using hop w
  refine ⟨?_, ?_, ?_⟩
  · rintro rfl
    exact step_read_hidden hi (resolve_byte hb) (hh .byte)
  · rintro rfl
    obtain ⟨hone, -⟩ | ⟨-, h4, -⟩ := hperm
    · cases hone
    · exact step_read_hidden hi (resolve_word hb (halign.trans h4)) (hh .word)
  · rw [assemble, BitVec.toNat_setWidth_of_le (by decide)]
    exact (Config.freeByte s.draws 0).isLt

/-! ### Writes dropped while BUSY (R59) -/

/-- A permitted write to anything but STATUS and the reserved register names CMD, IN_LEN or TILE. -/
theorem resolve_locked (hperm : WritePermitted a.toNat n) (hstatus : a.toNat ≠ 0x04) (hreserved : a.toNat ≠ 0x1C) :
    ∃ t, resolve a n = some t ∧ t.writable = true ∧ t.lockedWhileBusy = true := by
  rcases hperm with ⟨rfl, hlo, hhi⟩ | ⟨rfl, hreg⟩ | ⟨rfl, h4, hlo, hhi⟩
  · obtain ⟨o, ho⟩ := Nat.exists_eq_add_of_le hlo
    exact ⟨_, resolve_byte (ho ▸ ramAt_tile o (by omega)), rfl, rfl⟩
  · obtain h0 | h8 : a.toNat = 0x00 ∨ a.toNat = 0x08 := by omega
    · exact ⟨.reg .cmd, by rw [resolve_reg a (by omega), h0]; rfl, rfl, rfl⟩
    · exact ⟨.reg .inLen, by rw [resolve_reg a (by omega), h8]; rfl, rfl, rfl⟩
  · obtain ⟨o, ho⟩ := Nat.exists_eq_add_of_le hlo
    exact ⟨_, resolve_word (ho ▸ ramAt_tile o (by omega)) (by omega), rfl, rfl⟩

/-- A write to a locked target while BUSY only sets HAZ. -/
theorem step_write_dropped (hi : s.inputs = .host (.write a n v) :: rest) (hr : resolve a n = some tgt)
    (hbusy : s.pend ≠ none) (hlock : tgt.lockedWhileBusy = true) :
    step s = .next (flagHazard { s with inputs := rest }) := by
  have hb : ({ s with inputs := rest } : State).busy = true := Option.isSome_iff_ne_none.2 hbusy
  simp [step_write s a v n rest hi, hostWrite, hr, hb, hlock]

/-- Settles O41: what such a write names is locked while BUSY. -/
theorem busyWritesDropped : Obligations.BusyWritesDropped := by
  intro s a v n rest hi hbusy hperm hstatus hreserved
  obtain ⟨t, hr, -, hlock⟩ := resolve_locked hperm hstatus hreserved
  exact step_write_dropped hi hr hbusy hlock

end Sys2Proof.Proofs
end

