-- ==== Sys2Proof/Proofs/Encoding.lean ====
section
/-! The encoding chapter (30_encoding.md): the four legal command words of R80 and R81, their bytes in bus order
(20_memory.md R53), and the one-line host scripts of R86. -/

namespace Sys2Proof.Proofs
open Sys2Proof.Machine Sys2Proof.Laws

variable {s : State} {w : Word} {i : Instr} {rest : List Input}

/-! ### The fields of a command word (R80) -/

theorem rsvField_toNat (w : Word) : (rsvField w).toNat = w.toNat / 16 := by
  rw [rsvField, BitVec.extractLsb'_toNat, Nat.shiftRight_eq_div_pow]
  exact Nat.mod_eq_of_lt (by omega)

theorem opField_toNat (w : Word) : (opField w).toNat = w.toNat % 16 := by
  rw [opField, BitVec.extractLsb'_toNat, Nat.shiftRight_zero]

theorem rsvField_eq_zero_iff (w : Word) : rsvField w = 0 ↔ w.toNat / 16 = 0 := by
  rw [← rsvField_toNat]
  exact BitVec.toNat_inj.symm

/-! ### What every word decodes to (R81, R83) -/

@[simp] theorem decodeCmd_encode (i : Instr) : decodeCmd (encode i) = .ok i := by cases i <;> rfl

/-- A word whose value is that of a row of R81's table decodes to that row's command. -/
theorem decodeCmd_of_toNat_eq (h : w.toNat = (encode i).toNat) : decodeCmd w = .ok i := by
  rw [BitVec.eq_of_toNat_eq h, decodeCmd_encode]

theorem decodeCmd_of_rsv_ne_zero (h : w.toNat / 16 ≠ 0) : decodeCmd w = .error .reservedBits :=
  if_pos (mt (rsvField_eq_zero_iff w).1 h)

theorem decodeCmd_of_op_unused (hrsv : w.toNat / 16 = 0) (hop : 4 ≤ w.toNat % 16) :
    decodeCmd w = .error .undefinedOp := by
  rw [← opField_toNat] at hop
  rw [decodeCmd, if_neg (not_not_intro ((rsvField_eq_zero_iff w).2 hrsv))]
  split
  iterate 4 omega
  rfl

/-- A word that no test rejects is one of the four of R81's table. -/
theorem exists_eq_encode (hrsv : w.toNat / 16 = 0) (hop : w.toNat % 16 < 4) : ∃ i, w = encode i := by
  obtain h | h | h | h : w.toNat = 0 ∨ w.toNat = 1 ∨ w.toNat = 2 ∨ w.toNat = 3 := by omega
  exacts [⟨.nop, BitVec.eq_of_toNat_eq h⟩, ⟨.decode, BitVec.eq_of_toNat_eq h⟩, ⟨.write, BitVec.eq_of_toNat_eq h⟩,
    ⟨.extract, BitVec.eq_of_toNat_eq h⟩]

/-- The decoder accepts the words of the encoder, and no others. -/
theorem decodeCmd_eq_ok_iff (w : Word) (i : Instr) : decodeCmd w = .ok i ↔ w = encode i := by
  refine ⟨fun h => ?_, fun h => h ▸ decodeCmd_encode i⟩
  by_cases hrsv : w.toNat / 16 = 0
  · by_cases hop : w.toNat % 16 < 4
    · obtain ⟨j, rfl⟩ := exists_eq_encode hrsv hop
      rw [decodeCmd_encode] at h
      cases h; rfl
    · rw [decodeCmd_of_op_unused hrsv (Nat.le_of_not_lt hop)] at h
      cases h
  · rw [decodeCmd_of_rsv_ne_zero hrsv] at h
    cases h

/-- Settles O1: the two tests reject, and RSV 0 with OP below 4 leaves one value for each row of the table. -/
theorem decodeCmdFollowsTable : Obligations.DecodeCmdFollowsTable := by
  intro w
  refine ⟨fun hrsv => ⟨_, decodeCmd_of_rsv_ne_zero hrsv⟩, fun hrsv => ⟨fun hop => ?_, fun hop => ?_, fun hop => ?_,
    fun hop => ?_, fun hop => ⟨_, decodeCmd_of_op_unused hrsv hop⟩⟩⟩
  all_goals exact decodeCmd_of_toNat_eq (show w.toNat = _ by rw [← Nat.div_add_mod w.toNat 16, hrsv, hop]; rfl)

/-- Settles O2: the four rows of the table, and words that OP or RSV rejects. -/
theorem vectorWordsDecode : Obligations.VectorWordsDecode := by
  have unused {w : Word} (h : w.toNat / 16 = 0 ∧ 4 ≤ w.toNat % 16) := decodeCmd_of_op_unused h.1 h.2
  have reserved {w : Word} (h : w.toNat / 16 ≠ 0) := decodeCmd_of_rsv_ne_zero h
  exact ⟨decodeCmd_encode .nop, decodeCmd_encode .decode, decodeCmd_encode .write, decodeCmd_encode .extract,
    unused (by decide), unused (by decide), reserved (by decide), reserved (by decide), reserved (by decide),
    reserved (by decide)⟩

/-! ### Commands as bytes (20_memory.md R53) -/

/-- Taking four bytes as a word and laying the word out again gives them back. -/
theorem bytesOfCommand_commandOfBytes (b0 b1 b2 b3 : Byte) :
    bytesOfCommand (commandOfBytes b0 b1 b2 b3) = [b0, b1, b2, b3] :=
  le32_wordOfBytes b0 b1 b2 b3

/-- What the decoder accepts starts with the four bytes of a word it accepts. -/
theorem exists_of_decodeBytes_eq_ok {bs left : List Byte} (h : decodeBytes bs = .ok (i, left)) :
    ∃ b0 b1 b2 b3, bs = [b0, b1, b2, b3] ++ left ∧ decodeCmd (commandOfBytes b0 b1 b2 b3) = .ok i := by
  unfold decodeBytes at h
  split at h
  · next b0 b1 b2 b3 tail =>
    split at h
    · next hw => cases h; exact ⟨b0, b1, b2, b3, rfl, hw⟩
    · cases h
  · cases h

theorem roundTrip (i : Instr) : RoundTrip.Statement i := by
  cases i
  exacts [RoundTrip.nop, RoundTrip.decode, RoundTrip.write, RoundTrip.extract]

/-- Settles O3: the accepted word is the command's, so its four bytes are; the other way is the round trip. -/
theorem decodeEncodeBytesAgree : Obligations.DecodeEncodeBytesAgree := by
  intro bs i left
  constructor
  · intro h
    obtain ⟨b0, b1, b2, b3, rfl, hw⟩ := exists_of_decodeBytes_eq_ok h
    rw [encodeBytes, ← (decodeCmd_eq_ok_iff _ i).1 hw, bytesOfCommand_commandOfBytes]
  · rintro rfl
    obtain ⟨-, -, hround⟩ := roundTrip i
    exact hround left

/-! ### One-line host scripts (R85, R86) -/

/-- A line `W32 a, v` is one word write. -/
theorem scriptInputs_w32 (polls : Nat) (a v : Word) (rest : List Input) :
    scriptInputs polls [.w32 a v] ++ rest = .host (.write a .four v) :: rest := rfl

/-- A command word written while idle runs its command (42_sequencer.md R170). -/
theorem step_cmdWrite_encode (hidle : s.pend = none) (hi : s.inputs = cmdWrite (encode i) :: rest) :
    step s = exec i { s with inputs := rest } := by
  have hissue : step s = issueCommand (encode i) { s with inputs := rest } :=
    step_write_performed hi (tgt := .reg .cmd) rfl rfl fun _ => hidle
  rw [hissue, issueCommand, decodeCmd_encode]

/-- Settles O56: each line is the write of its command's word to CMD. -/
theorem commandPseudoInstructionsRun : Obligations.CommandPseudoInstructionsRun := by
  intro s polls rest hidle
  simp only [Pseudo.expand, scriptInputs_w32]
  exact ⟨step_cmdWrite_encode (i := .nop) hidle, step_cmdWrite_encode (i := .decode) hidle,
    step_cmdWrite_encode (i := .write) hidle, step_cmdWrite_encode (i := .extract) hidle⟩

/-- Settles O57: SETLEN is a write to IN_LEN; CLEAR is a write to STATUS with bits 1, 2 and 10 set (R25, R26). -/
theorem setLenAndClearScripts : Obligations.SetLenAndClearScripts := by
  intro s polls n rest
  simp only [Pseudo.expand, scriptInputs_w32]
  obtain ⟨-, writeInLen, -, -⟩ := registerAccesses
  exact ⟨fun hidle hi => writeInLen s n rest hi hidle, fun hi => statusWriteClears s 0x406 rest hi⟩

end Sys2Proof.Proofs
end

