-- ==== Sys2Proof/Proofs/Decode.lean ====
section
/-! The decode chapter (40_decode.md): the length check of R101, the lanes of R107, the placement of R109 to R112, the
grid a DECODE leaves with its frame, the half of the bank it never reads (R105), and the loop of R114. -/

namespace Sys2Proof.Proofs
open Sys2Proof.Machine Sys2Proof.Laws

variable {s t : State} {len : Word} {n j k : Nat}

/-! ### What exec can do with DECODE, and with a pending EXTRACT -/

/-- The three ends of a pending DECODE. -/
theorem exec_decode_pending (h : s.pend = some ⟨.decode, len⟩) :
    exec .decode s =
      if len.toNat % 8192 ≠ 0 then .next (raiseError .misalignedBufferSize s)
      else if len.toNat ≠ 8192 then .next (raiseError .invalidBankCount s)
      else .next (completeOk (storeGrid 16 s)) := by
  rw [exec, execDecode, runCommand_pending _ _ _ _ h, decodePhase_eq, apply_ite finish, apply_ite finish]
  rfl

/-- The four ends of a pending EXTRACT (42_sequencer.md R174). -/
theorem exec_extract_pending (h : s.pend = some ⟨.extract, len⟩) :
    exec .extract s =
      if len.toNat % 8192 ≠ 0 then .next (raiseError .misalignedBufferSize s)
      else if len.toNat ≠ 8192 then .next (raiseError .invalidBankCount s)
      else if s.outCap.val < 65590 then .next (raiseError .ioFailure (storeGrid 16 s))
      else .next (completeOk (storeFile (storeGrid 16 s))) := by
  rw [exec, execExtract, runCommand_pending _ _ _ _ h, extractPhase_eq, apply_ite finish, apply_ite finish,
    apply_ite finish]
  rfl

/-- Everything DECODE can do (42_sequencer.md R171, R172, R175). -/
inductive DecodeChange (s : State) : State → Prop where
  /-- Issued while idle. -/
  | accepted : s.pend = none → DecodeChange s (accept .decode s)
  /-- Completed. -/
  | completed : s.pend = some ⟨.decode, 8192⟩ → DecodeChange s (completeOk (storeGrid 16 s))
  /-- Ended by the length check (R101). -/
  | failed (len : Word) (e : ErrorCode) : s.pend = some ⟨.decode, len⟩ → len ≠ 8192 → DecodeChange s (raiseError e s)
  /-- Issued while another command is pending. -/
  | dropped (p : Pending) : s.pend = some p → p.op ≠ .decode → DecodeChange s (flagHazard s)

theorem decodeChange_of_exec (h : exec .decode s = .next t) : DecodeChange s t := by
  cases hp : s.pend with
  | none =>
    rw [exec_idle .decode s hp] at h
    cases h
    exact .accepted hp
  | some p =>
    obtain ⟨op, len⟩ := p
    by_cases hop : op = .decode
    · subst hop
      rw [exec_decode_pending hp] at h
      split at h
      · next hmis => cases h; exact .failed len _ hp fun hlen => hmis (by rw [hlen]; rfl)
      · split at h
        · next hcount => cases h; exact .failed len _ hp fun hlen => hcount (by rw [hlen]; rfl)
        · next hcount =>
          obtain rfl : len = 8192 := BitVec.eq_of_toNat_eq (not_not.1 hcount)
          cases h; exact .completed hp
    · rw [exec, execDecode, runCommand_other _ _ _ _ hp hop] at h
      cases h
      exact .dropped _ hp hop

/-- Settles O11: a multiple of 8192 is a multiple of 32, so one test decides code 2. -/
theorem decodeChecksLength : Obligations.DecodeChecksLength := by
  intro s len hp
  have hends := exec_decode_pending hp
  refine ⟨fun hmis => ?_, fun _ hbanks hcount => ?_, fun _ hbanks hcount => ?_⟩
  · rw [hends, if_pos (by omega)]; rfl
  · rw [hends, if_neg (by omega), if_pos (by omega)]; rfl
  · obtain rfl : len = 8192 := BitVec.eq_of_toNat_eq (show len.toNat = 8192 by omega)
    exact ⟨rfl, _, exec_decode_complete s hp, rfl, rfl, rfl⟩

/-- Settles O12: the witness is the FB that the stores of the decode phase leave. -/
theorem decodeCompletesWithGrid : Obligations.DecodeCompletesWithGrid := by
  intro s hp
  refine ⟨(storeGrid 16 s).fb, exec_decode_complete s hp, storeGrid_fbWord s, fun a ha => ?_⟩
  rw [storeGrid_fb_read, if_neg (by omega)]

/-- Settles O20: only a completion writes a RAM, and only a drop sets HAZ. -/
theorem decodeFrame : Obligations.DecodeFrame := by
  intro s t h
  cases decodeChange_of_exec h with
  | completed hp =>
    refine ⟨rfl, rfl, rfl, rfl, rfl, fun _ => rfl, fun _ => rfl, fun hne => absurd hp hne, fun a ha => ?_, fun _ => rfl⟩
    rw [completeOk_fb, storeGrid_fb_read, if_neg (by omega)]
  | dropped p hp hop =>
    exact ⟨rfl, rfl, rfl, rfl, rfl, fun _ => rfl, fun _ => rfl, fun _ _ => rfl, fun _ _ => rfl,
      fun hown => absurd (hown p hp) hop⟩
  | accepted | failed =>
    exact ⟨rfl, rfl, rfl, rfl, rfl, fun _ => rfl, fun _ => rfl, fun _ _ => rfl, fun _ _ => rfl, fun _ => rfl⟩

/-! ### Lanes (R106, R107) -/

/-- The sum of a low bit and twice a high bit fits the two bits of an intensity. -/
theorem intensity_toNat (lo hi : Byte) (b : Nat) : (intensity lo hi b).toNat = bitAt lo b + 2 * bitAt hi b := by
  have hlo : bitAt lo b ≤ 1 := Bool.toNat_le _
  have hhi : bitAt hi b ≤ 1 := Bool.toNat_le _
  rw [intensity, BitVec.toNat_ofNat]
  exact Nat.mod_eq_of_lt (by omega)

/-- Settles O17: lane `k` is the intensity of bit `7 - k`, as a number. -/
theorem unpackRowLanes : Obligations.UnpackRowLanes := fun lo hi =>
  ⟨length_unpackRow lo hi, fun k hk => ⟨_, getElem?_unpackRow lo hi k hk, intensity_toNat lo hi (7 - k)⟩⟩

/-! ### The placement and its inverse (R109 to R112) -/

/-- The FB cell of lane `k` of row `j` of tile `t`, in a grid of 16 tiles a side (R109 to R111). -/
def pixelCell (t j k : Nat) : Nat :=
  cellIndex 16 (pixelColumn (reverseColumn 16 (sourceColumn 16 t)) k) (flipRow 16 (visualRow (tileRow 16 t) j))

/-- The tile whose pixel lies in FB cell `n` (R112). -/
def cellTile (n : Nat) : Nat := 16 * ((127 - n / 128) / 8) + (15 - n % 128 / 8)

/-- The row of that pixel in its tile. -/
def cellRow (n : Nat) : Nat := (127 - n / 128) % 8

/-- The lane of that pixel. -/
def cellLane (n : Nat) : Nat := n % 128 % 8

/-- Tile rows stack upwards from the last grid row, tile columns run leftwards from the last grid column. -/
theorem pixelCell_eq (t j k : Nat) : pixelCell t j k = 128 * (127 - (8 * (t / 16) + j)) + (8 * (15 - t % 16) + k) := by
  simp only [pixelCell, cellIndex, pixelColumn, reverseColumn, sourceColumn, flipRow, visualRow, tileRow, gridPixels,
    Config.tilePx]
  omega

theorem cellTile_lt (n : Nat) : cellTile n < 256 := by unfold cellTile; omega

theorem cellRow_lt (n : Nat) : cellRow n < 8 := Nat.mod_lt _ (by decide)

theorem cellLane_lt (n : Nat) : cellLane n < 8 := Nat.mod_lt _ (by decide)

theorem pixelCell_lt {t : Nat} (hk : k < 8) : pixelCell t j k < 16384 := by
  rw [pixelCell_eq]; omega

/-- Every cell of FB is the cell of its tile, row and lane. -/
theorem pixelCell_of_cell (hn : n < 16384) : pixelCell (cellTile n) (cellRow n) (cellLane n) = n := by
  have hrow : cellTile n / 16 = (127 - n / 128) / 8 := by unfold cellTile; omega
  have hcolumn : cellTile n % 16 = 15 - n % 128 / 8 := by unfold cellTile; omega
  rw [pixelCell_eq, hrow, hcolumn, cellRow, cellLane]
  omega

/-- The cell of a pixel gives its tile, row and lane back. -/
theorem cell_of_pixelCell {t : Nat} (ht : t < 256) (hj : j < 8) (hk : k < 8) :
    cellTile (pixelCell t j k) = t ∧ cellRow (pixelCell t j k) = j ∧ cellLane (pixelCell t j k) = k := by
  have hrow : pixelCell t j k / 128 = 127 - (8 * (t / 16) + j) := by rw [pixelCell_eq]; omega
  have hcolumn : pixelCell t j k % 128 = 8 * (15 - t % 16) + k := by rw [pixelCell_eq]; omega
  simp only [cellTile, cellRow, cellLane, hrow, hcolumn]
  omega

/-- Settles O13: `cellTile`, `cellRow` and `cellLane` are the inverse of the placement. -/
theorem placementIsBijection : Obligations.PlacementIsBijection := by
  refine ⟨fun t _ j _ k hk => pixelCell_lt hk, fun n hn => ?_, fun s hp =>
    ⟨_, exec_decode_complete s hp, storeGrid_fbWord s⟩⟩
  refine ⟨(cellTile n, cellRow n, cellLane n),
    ⟨cellTile_lt n, cellRow_lt n, cellLane_lt n, pixelCell_of_cell hn⟩, ?_⟩
  rintro ⟨t, j, k⟩ ⟨ht, hj, hk, hcell : pixelCell t j k = n⟩
  obtain ⟨htile, hrow, hlane⟩ := cell_of_pixelCell ht hj hk
  rw [← hcell, htile, hrow, hlane]

/-! ### Grid cells -/

/-- The colour word of lane `k` of row `j` of tile `t` (R106, R108). -/
def pixelWord (tile : Ram) (t j k : Nat) : Word :=
  Config.palette (intensity (loByte tile t j) (hiByte tile t j) (7 - k))

/-- The closed form of R112 is the colour word of the cell's own pixel. -/
theorem gridCell_eq_pixelWord (tile : Ram) (n : Nat) :
    gridCell tile.read n = pixelWord tile (cellTile n) (cellRow n) (cellLane n) := rfl

theorem gridCell_pixelCell (tile : Ram) {t : Nat} (ht : t < 256) (hj : j < 8) (hk : k < 8) :
    gridCell tile.read (pixelCell t j k) = pixelWord tile t j k := by
  obtain ⟨htile, hrow, hlane⟩ := cell_of_pixelCell ht hj hk
  rw [gridCell_eq_pixelWord, htile, hrow, hlane]

/-! ### The half of the bank that is never read (R105, R118) -/

section HalfBank

variable {tile : Ram} (hhalf : ∀ a < 4096, tile.read a = s.tile.read a)
include hhalf

/-- The 256 tiles of the grid are the first 4096 bytes of the bank. -/
theorem gridCell_of_half (n : Nat) : gridCell tile.read n = gridCell s.tile.read n := by
  have htile := cellTile_lt n
  have hrow := cellRow_lt n
  have hlo : loByte tile (cellTile n) (cellRow n) = loByte s.tile (cellTile n) (cellRow n) :=
    hhalf _ (by simp only [Config.tileBytes]; omega)
  have hhi : hiByte tile (cellTile n) (cellRow n) = hiByte s.tile (cellTile n) (cellRow n) :=
    hhalf _ (by simp only [Config.tileBytes, Config.planeBytes]; omega)
  rw [gridCell_eq_pixelWord, gridCell_eq_pixelWord, pixelWord, pixelWord, hlo, hhi]

theorem gridWords_of_half : gridWords tile 16 = gridWords s.tile 16 := by
  refine List.ext_getElem? fun n => ?_
  by_cases hn : n < 16384
  · rw [getElem?_gridWords _ n hn, getElem?_gridWords _ n hn, gridCell_of_half hhalf]
  · have hlen (r : Ram) : (gridWords r 16).length ≤ n := by rw [length_gridWords]; exact Nat.le_of_not_lt hn
    rw [List.getElem?_eq_none (hlen _), List.getElem?_eq_none (hlen _)]

/-- A decode of the same first half makes the same writes. -/
theorem storeGrid_of_half : storeGrid 16 { s with tile := tile } = { storeGrid 16 s with tile := tile } := by
  simp only [storeGrid, gridWords_of_half hhalf]

end HalfBank

/-- Settles O15: the ends of both commands depend on the length and OUT_CAP, their writes on the first half of TILE. -/
theorem secondHalfOfBankUnread : Obligations.SecondHalfOfBankUnread := by
  intro s tile hhalf
  have hgrid := storeGrid_of_half hhalf
  refine ⟨fun len hp => ?_, fun len hp => ?_⟩
  · rw [exec_decode_pending hp, exec_decode_pending (s := { s with tile := tile }) hp, hgrid]
    split
    · exact ⟨_, rfl, rfl⟩
    · split <;> exact ⟨_, rfl, rfl⟩
  · rw [exec_extract_pending hp, exec_extract_pending (s := { s with tile := tile }) hp, hgrid]
    split
    · exact ⟨_, rfl, rfl⟩
    · split
      · exact ⟨_, rfl, rfl⟩
      · split <;> exact ⟨_, rfl, rfl⟩

/-- Settles O16: each cell is the closed form of the first half, and the sizes are those of every grid. -/
theorem decodeIsIdempotent : Obligations.DecodeIsIdempotent := by
  intro s s' hp hp' hhalf
  refine ⟨_, _, exec_decode_complete s hp, exec_decode_complete s' hp', fun n hn => ?_, rfl, rfl, rfl, rfl, rfl, rfl⟩
  rw [completeOk_fb, completeOk_fb, storeGrid_fbWord s' n hn, storeGrid_fbWord s n hn, gridCell_of_half hhalf]

/-! ### The loop of R114 -/

/-- Stores of whole words, one after another, as R114's loop makes them. -/
def storeWords (fb : Ram) (stores : List (Nat × Word)) : Ram :=
  stores.foldl (fun fb st => fb.storeBytes (4 * st.1) (le32 st.2)) fb

theorem decodeLoop_eq_storeWords (tile : Ram) (side tiles : Nat) (fb : Ram) :
    decodeLoop tile side tiles fb = storeWords fb (loopStores tile side tiles) := rfl

theorem storeWords_cons (fb : Ram) (st : Nat × Word) (stores : List (Nat × Word)) :
    storeWords fb (st :: stores) = storeWords (fb.storeBytes (4 * st.1) (le32 st.2)) stores := rfl

theorem drawNo_storeWords (fb : Ram) (stores : List (Nat × Word)) : (storeWords fb stores).drawNo = fb.drawNo := by
  induction stores generalizing fb with
  | nil => rfl
  | cons st stores ih => rw [storeWords_cons, ih, Ram_drawNo_storeBytes]

theorem wf_storeWords {size : Nat} {fb : Ram} {stores : List (Nat × Word)} (h : fb.wf size)
    (hb : ∀ st ∈ stores, 4 * st.1 + 4 ≤ size) : (storeWords fb stores).wf size := by
  induction stores generalizing fb with
  | nil => exact h
  | cons st stores ih =>
    obtain ⟨hst, hstores⟩ := List.forall_mem_cons.1 hb
    exact ih (Ram_wf_storeBytes size fb _ _ h hst) hstores

/-- A word's store reaches the bytes of that word only. -/
theorem lookup_storeBytes_word (m : Memory) (n : Nat) (w : Word) (a : Nat) :
    (m.storeBytes (4 * n) (le32 w)).lookup a = if n = a / 4 then some (byteOf w (a % 4)) else m.lookup a := by
  rw [lookup_storeBytes, length_le32]
  by_cases h : n = a / 4
  · rw [if_pos (by omega), if_pos h, show a - 4 * n = a % 4 by omega, getElem?_le32 _ _ (Nat.mod_lt a (by decide))]
  · rw [if_neg (by omega), if_neg h]

/-- When every store of a word stores the same value, the order of the stores does not matter. -/
theorem lookup_storeWords (word : Nat → Word) {stores : List (Nat × Word)} (h : ∀ st ∈ stores, st.2 = word st.1)
    (fb : Ram) (a : Nat) :
    (storeWords fb stores).cells.lookup a =
      if ∃ st ∈ stores, st.1 = a / 4 then some (byteOf (word (a / 4)) (a % 4)) else fb.cells.lookup a := by
  induction stores generalizing fb with
  | nil => simp [storeWords]
  | cons st stores ih =>
    obtain ⟨hst, hstores⟩ := List.forall_mem_cons.1 h
    rw [storeWords_cons, ih hstores, Ram.storeBytes, lookup_storeBytes_word]
    simp only [List.exists_mem_cons_iff]
    by_cases hlater : ∃ st ∈ stores, st.1 = a / 4
    · rw [if_pos hlater, if_pos (.inr hlater)]
    · by_cases hnow : st.1 = a / 4
      · rw [if_neg hlater, if_pos hnow, if_pos (.inl hnow), hst, hnow]
      · rw [if_neg hlater, if_neg hnow, if_neg (not_or_intro hnow hlater)]

/-- The loop stores in each cell of the grid, and always the cell's closed form (R112, R113). -/
theorem mem_loopStores_iff (tile : Ram) (st : Nat × Word) :
    st ∈ loopStores tile 16 256 ↔ st.1 < 16384 ∧ st.2 = gridCell tile.read st.1 := by
  have hpixels : st ∈ loopStores tile 16 256 ↔
      ∃ t < 256, ∃ j < 8, ∃ k < 8, (pixelCell t j k, pixelWord tile t j k) = st := by
    simp only [loopStores, List.mem_flatMap, List.mem_range, rowStores, List.mem_map]
    rfl
  rw [hpixels]
  constructor
  · rintro ⟨t, ht, j, hj, k, hk, rfl⟩
    exact ⟨pixelCell_lt hk, (gridCell_pixelCell tile ht hj hk).symm⟩
  · rintro ⟨hn, hword⟩
    refine ⟨_, cellTile_lt st.1, _, cellRow_lt st.1, _, cellLane_lt st.1, ?_⟩
    rw [pixelCell_of_cell hn, ← gridCell_eq_pixelWord, ← hword]

/-- Each byte of FB listed after the loop. -/
theorem lookup_decodeLoop (tile fb : Ram) (a : Nat) :
    (decodeLoop tile 16 256 fb).cells.lookup a =
      if a < 65536 then some (byteOf (gridCell tile.read (a / 4)) (a % 4)) else fb.cells.lookup a := by
  have hstored : (∃ st ∈ loopStores tile 16 256, st.1 = a / 4) ↔ a < 65536 := by
    constructor
    · rintro ⟨st, hst, hcell⟩
      have hlt := ((mem_loopStores_iff tile st).1 hst).1
      omega
    · exact fun ha => ⟨(a / 4, gridCell tile.read (a / 4)),
        (mem_loopStores_iff tile _).2 ⟨show a / 4 < 16384 by omega, rfl⟩, rfl⟩
  rw [decodeLoop_eq_storeWords,
    lookup_storeWords (gridCell tile.read) fun st hst => ((mem_loopStores_iff tile st).1 hst).2]
  simp only [hstored]

/-- Each byte of FB listed after the stores of the decode phase. -/
theorem lookup_storeGrid_fb (s : State) (a : Nat) :
    (storeGrid 16 s).fb.cells.lookup a =
      if a < 65536 then some (byteOf (gridCell s.tile.read (a / 4)) (a % 4)) else s.fb.cells.lookup a := by
  rw [storeGrid_fb, Ram.storePrefix, lookup_storePrefix, length_gridBytes]
  split
  · next ha => exact getElem?_gridBytes s.tile a ha
  · rfl

theorem wf_decodeLoop (tile : Ram) {fb : Ram} (h : fb.wf 65536) : (decodeLoop tile 16 256 fb).wf 65536 :=
  wf_storeWords h fun st hst => by
    have hlt := ((mem_loopStores_iff tile st).1 hst).1
    omega

theorem drawNo_decodeLoop (tile fb : Ram) : (decodeLoop tile 16 256 fb).drawNo = fb.drawNo := by
  rw [decodeLoop_eq_storeWords, drawNo_storeWords]

/-- Canonical RAMs of one draw that list the same bytes are the same data. -/
theorem Ram_eq_of_lookup {size : Nat} {r r' : Ram} (h : r.wf size) (h' : r'.wf size) (hd : r.drawNo = r'.drawNo)
    (hl : ∀ a, r.cells.lookup a = r'.cells.lookup a) : r = r' := by
  have hcells : r.cells = r'.cells := Memory_eq_of_lookup _ _ h.1 h'.1 hl
  cases r; cases r'; congr

theorem storeGrid_fb_eq_decodeLoop (h : s.fb.wf 65536) : (storeGrid 16 s).fb = decodeLoop s.tile 16 256 s.fb :=
  Ram_eq_of_lookup (wf_storeGrid_fb s h) (wf_decodeLoop s.tile h)
    (by rw [storeGrid_fb, Ram_drawNo_storePrefix, drawNo_decodeLoop])
    (fun a => by rw [lookup_storeGrid_fb, lookup_decodeLoop])

/-- Settles O14: both list the closed form in every byte of FB, in canonical form. -/
theorem decodeEqualsLoop : Obligations.DecodeEqualsLoop := fun s hp hwf =>
  ⟨_, exec_decode_complete s hp, storeGrid_fb_eq_decodeLoop hwf⟩

end Sys2Proof.Proofs
end

