-- ==== Sys2Proof/Proofs/Write.lean ====
section
/-! The write chapter (41_write.md): everything WRITE can do, the file it leaves byte by byte (R142 to R146, R151), its
errors in their order (R147, R148), and its frame. -/

namespace Sys2Proof.Proofs
open Sys2Proof.Machine Sys2Proof.Laws

variable {s t : State} {len : Word}

/-! ### What exec can do with WRITE -/

/-- A pending WRITE ends as its write phase does, whatever length was latched (R140). -/
theorem exec_write_pending (h : s.pend = some ⟨.write, len⟩) : exec .write s = finish (writePhase s) :=
  runCommand_pending .write (fun _ => writePhase) s len h

/-- With a valid grid that FB holds and OUT has room for, a pending WRITE completes with its file (R149). -/
theorem exec_write_complete (h : s.pend = some ⟨.write, len⟩) (hg : s.gridValid = true)
    (hroom : s.fileSize ≤ s.outCap.val) (hfb : s.width.toNat * s.height.toNat ≤ 16384) :
    exec .write s = .next (completeOk (storeFile s)) := by
  rw [exec_write_pending h, writePhase_ok s hg hroom hfb, finish]

/-- The same of the one grid the block makes. -/
theorem exec_write_complete_128 (h : s.pend = some ⟨.write, len⟩) (hg : s.gridValid = true) (hw : s.width = 128)
    (hh : s.height = 128) (hroom : 65590 ≤ s.outCap.val) : exec .write s = .next (completeOk (storeFile s)) :=
  exec_write_complete h hg (by rw [fileSize_of_128 s hw hh]; exact hroom) (by rw [hw, hh]; decide)

/-- Everything WRITE can do (42_sequencer.md R171, R172, R175). -/
inductive WriteChange (s : State) : State → Prop where
  /-- Issued while idle. -/
  | accepted : s.pend = none → WriteChange s (accept .write s)
  /-- Completed. -/
  | completed (len : Word) : s.pend = some ⟨.write, len⟩ → WriteChange s (completeOk (storeFile s))
  /-- Ended by one of its checks (R147, R148). -/
  | failed (len : Word) (e : ErrorCode) : s.pend = some ⟨.write, len⟩ → WriteChange s (raiseError e s)
  /-- Issued while another command is pending. -/
  | dropped (p : Pending) : s.pend = some p → p.op ≠ .write → WriteChange s (flagHazard s)

/-- The engine's ends of a pending WRITE are WRITE's own. -/
theorem writeChange_of_engineChange (hp : s.pend = some ⟨.write, len⟩) (hc : EngineChange s t) : WriteChange s t := by
  cases hc with
  | written len' hp' => exact .completed len' hp'
  | failed p e => exact .failed len e hp
  | idle hp' | decoded hp' | extracted hp' | extractFailed hp' => cases hp.symm.trans hp'

theorem writeChange_of_exec (h : exec .write s = .next t) : WriteChange s t := by
  cases hp : s.pend with
  | none =>
    rw [exec_idle .write s hp] at h
    cases h
    exact .accepted hp
  | some p =>
    obtain ⟨op, len⟩ := p
    by_cases hop : op = .write
    · subst hop
      have hengine : engineStep s = .next t := by rw [engineStep, hp]; exact h
      exact writeChange_of_engineChange hp (engineChange_of_engineStep hengine)
    · rw [exec, execWrite, runCommand_other _ _ _ _ hp hop] at h
      cases h
      exact .dropped _ hp hop

/-! ### The header of the file (R142, R143) -/

/-- A word of a RAM is the word whose little-endian bytes it holds. -/
theorem readWord_of_bytes {r : Ram} {a : Nat} {v : Word} (h : ∀ m < 4, r.read (a + m) = byteOf v m) :
    r.readWord a = v := by
  have h0 : r.read a = byteOf v 0 := h 0 (by decide)
  rw [Ram.readWord, h0, h 1 (by decide), h 2 (by decide), h 3 (by decide), wordOfBytes_le32]

/-- The header fields in their order (R142, R143). -/
def headerFields (w h : Nat) : List (List Byte) :=
  [field16 0x4D42, field32 (fileSize w h), field16 0, field16 0, field32 54,
    field32 40, field32 w, field32 h, field16 1, field16 32, field32 0, field32 0, field32 0, field32 0, field32 0,
    field32 0]

theorem headers_eq_flatten (w h : Nat) : fileHeader w h ++ imageHeader w h = (headerFields w h).flatten := by
  simp only [fileHeader, imageHeader, headerFields, List.flatten_cons, List.flatten_nil, List.append_assoc,
    List.append_nil]

theorem storeFile_headerFields (s : State) (o : Nat) (ho : o < 54) :
    (storeFile s).out.read o = ((headerFields s.width.toNat s.height.toNat).flatten[o]?).getD 0 := by
  rw [storeFile_header s o ho, headers_eq_flatten]

/-- A 32-bit header field lies in OUT at its offset among the fields (R144). -/
theorem storeFile_field32 (s : State) {o v : Nat} (ho : o + 4 ≤ 54)
    (hfield : ((headerFields s.width.toNat s.height.toNat).flatten.drop o).take 4 = field32 v) :
    (storeFile s).out.readWord o = BitVec.ofNat 32 v := by
  refine readWord_of_bytes fun m hm => ?_
  rw [storeFile_headerFields s (o + m) (by omega), ← List.getElem?_drop, ← List.getElem?_take_of_lt hm, hfield,
    field32, getElem?_le32 _ m hm, Option.getD_some]

/-- Settles O21: each field has its offset by the sizes of the fields before it, and the last six are zero. -/
theorem writeHeaderFields : Obligations.WriteHeaderFields := by
  intro s len hp hg hroom hfb
  have hbyte := storeFile_headerFields s
  refine ⟨_, exec_write_complete hp hg hroom hfb, ?_⟩
  rw [completeOk_out]
  refine ⟨hbyte 0 (by decide), hbyte 1 (by decide), storeFile_field32 s (by decide) rfl, fun o hlo hhi => ?_,
    storeFile_field32 s (by decide) rfl, storeFile_field32 s (by decide) rfl, ?_, ?_,
    hbyte 26 (by decide), hbyte 27 (by decide), hbyte 28 (by decide), hbyte 29 (by decide), fun o hlo hhi => ?_⟩
  · obtain rfl | rfl | rfl | rfl : o = 6 ∨ o = 7 ∨ o = 8 ∨ o = 9 := by omega
    all_goals exact hbyte _ (by decide)
  · rw [storeFile_field32 s (v := s.width.toNat) (by decide) rfl, BitVec.ofNat_toNat, BitVec.setWidth_eq]
  · rw [storeFile_field32 s (v := s.height.toNat) (by decide) rfl, BitVec.ofNat_toNat, BitVec.setWidth_eq]
  · rw [storeFile_header s o hhi, headers_zero _ _ o hlo hhi]

/-- Settles O24: the file of a 128 x 128 grid starts with the header of V-W1. -/
theorem writeHeaderOf128 : Obligations.WriteHeaderOf128 := by
  intro s len hp hg hw hh hroom
  obtain ⟨hheader, -⟩ := holdsFile_storeFile s hw hh
  refine ⟨_, exec_write_complete_128 hp hg hw hh hroom, ?_, hheader⟩
  rw [completeOk_outLen, storeFile_outLen, fileSize_of_128 s hw hh]
  rfl

/-! ### The pixel data (R145, R146) -/

/-- Byte `m` of FB's word `n` is the byte at offset `4n + m` (20_memory.md R56). -/
theorem byteOf_fbWord_of_lt (fb : Ram) (n : Nat) {m : Nat} (hm : m < 4) :
    byteOf (fbWord fb n) m = fb.read (4 * n + m) := by
  rw [← byteOf_fbWord fb (4 * n + m), show (4 * n + m) / 4 = n by omega, show (4 * n + m) % 4 = m by omega]

/-- Settles O22: the pixel data are the bytes of FB in their order. -/
theorem writePixelData : Obligations.WritePixelData := by
  intro s len hp hg hroom hfb
  refine ⟨_, exec_write_complete hp hg hroom hfb, fun n hn m hm => ?_⟩
  rw [completeOk_out, Nat.add_assoc, storeFile_pixel s _ (by omega)]
  exact (byteOf_fbWord_of_lt s.fb n hm).symm

/-! ### The whole file (R149, R151, R152) -/

/-- A WRITE keeps OUT from the file size up (R151). -/
theorem storeFile_out_read_above (s : State) {o : Nat} (ho : s.fileSize ≤ o) :
    (storeFile s).out.read o = s.out.read o := by
  rw [storeFile_out_read, if_neg (Nat.not_lt.2 ho)]

/-- Settles O23: the witness is the OUT that the stores of the write phase leave. -/
theorem writeCompletesWithFile : Obligations.WriteCompletesWithFile := fun s _ hp hg hroom hfb =>
  ⟨(storeFile s).out, exec_write_complete hp hg hroom hfb, fun _ ho => storeFile_out_read_above s ho⟩

/-- Two RAMs that hold the file of the same grid agree on its 65590 bytes. -/
theorem holdsFile_unique {out out' fb fb' : Ram} (h : HoldsFile out fb) (h' : HoldsFile out' fb')
    (hfb : ∀ n < 16384, fbWord fb' n = fbWord fb n) {o : Nat} (ho : o < 65590) : out'.read o = out.read o := by
  obtain ⟨hheader, hpixel⟩ := h
  obtain ⟨hheader', hpixel'⟩ := h'
  by_cases h54 : o < 54
  · rw [hheader o h54, hheader' o h54]
  · obtain ⟨i, rfl⟩ := Nat.exists_eq_add_of_le (Nat.le_of_not_lt h54)
    rw [hpixel i (by omega), hpixel' i (by omega), ← byteOf_fbWord fb, ← byteOf_fbWord fb', hfb _ (by omega)]

/-- Settles O27: both leave the file of one grid. -/
theorem writeTwiceSameFile : Obligations.WriteTwiceSameFile := by
  intro s s' len len' hp hp' hg hg' hw hh hw' hh' hroom hcap hfb
  refine ⟨_, _, exec_write_complete_128 hp hg hw hh hroom,
    exec_write_complete_128 hp' hg' hw' hh' (by rw [hcap]; exact hroom), fun o ho => ?_⟩
  exact holdsFile_unique (holdsFile_storeFile s hw hh) (holdsFile_storeFile s' hw' hh') hfb ho

/-! ### Errors and frame (R140, R147, R148) -/

/-- Settles O25: the grid is checked before the room in OUT. -/
theorem writeErrors : Obligations.WriteErrors := by
  intro s len hp
  rw [exec_write_pending hp]
  refine ⟨fun hg => ?_, fun hg hroom => ?_⟩
  · rw [writePhase_noGrid s hg]; rfl
  · rw [writePhase_ioFailure s hg hroom]; rfl

/-- Settles O28: only a completion writes OUT, and it sets OUT_VALID; only a drop sets HAZ. -/
theorem writeFrame : Obligations.WriteFrame := by
  intro s t h
  cases writeChange_of_exec h with
  | completed =>
    exact ⟨rfl, rfl, rfl, rfl, rfl, rfl, rfl, rfl, fun _ => rfl, fun _ => rfl,
      fun _ ha => storeFile_out_read_above s ha, nofun, fun _ => rfl⟩
  | dropped p hp hop =>
    exact ⟨rfl, rfl, rfl, rfl, rfl, rfl, rfl, rfl, fun _ => rfl, fun _ => rfl, fun _ _ => rfl, fun _ _ => rfl,
      fun hown => absurd (hown p hp) hop⟩
  | accepted | failed =>
    exact ⟨rfl, rfl, rfl, rfl, rfl, rfl, rfl, rfl, fun _ => rfl, fun _ => rfl, fun _ _ => rfl, fun _ _ => rfl,
      fun _ => rfl⟩

end Sys2Proof.Proofs
end

section
/-! The sequencer chapter (42_sequencer.md): the CMD write of R170 to R173 and R176, the engine's turn of R175, and
EXTRACT (R174): the grid and the file it leaves, its errors in their order, its two phases, and its frame. -/

namespace Sys2Proof.Proofs
open Sys2Proof.Machine Sys2Proof.Laws

variable {s t : State} {w len : Word} {rest : List Input}

/-! ### The CMD write (R170 to R173, R176) -/

/-- A CMD write while idle issues its word (R170). -/
theorem step_cmdWrite_idle (hidle : s.pend = none) (hi : s.inputs = cmdWrite w :: rest) :
    step s = issueCommand w { s with inputs := rest } :=
  step_write_performed hi (tgt := .reg .cmd) rfl rfl fun _ => hidle

/-- A CMD write while BUSY only sets HAZ (R171). -/
theorem step_cmdWrite_busy (hbusy : s.pend ≠ none) (hi : s.inputs = cmdWrite w :: rest) :
    step s = .next (flagHazard { s with inputs := rest }) :=
  step_write_dropped hi (tgt := .reg .cmd) rfl hbusy rfl

/-- The four bytes in bus order determine the word (20_memory.md R53). -/
theorem bytesOfCommand_injective : Function.Injective bytesOfCommand := by
  intro v w h
  have hbytes : le32 v = le32 w := h
  simp only [le32, List.cons.injEq, and_true] at hbytes
  obtain ⟨h0, h1, h2, h3⟩ := hbytes
  rw [← wordOfBytes_le32 v, ← wordOfBytes_le32 w, h0, h1, h2, h3]

/-- Settles O4: the bytes that decode to a command are its own, so the word written is the encoder's. -/
theorem stepRunsDecodedCommand : Obligations.StepRunsDecodedCommand := by
  intro s w i rest hi hidle hdecode _
  have hbytes : bytesOfCommand w = bytesOfCommand (encode i) :=
    ((decodeEncodeBytesAgree _ i []).1 hdecode).trans (List.append_nil _)
  obtain rfl : w = encode i := bytesOfCommand_injective hbytes
  exact step_cmdWrite_encode hidle hi

/-- Settles O9: CMD is locked while BUSY, and its word is not looked at. -/
theorem busyCommandWriteDropped : Obligations.BusyCommandWriteDropped := fun _ _ _ hi hbusy =>
  step_cmdWrite_busy hbusy hi

/-- Settles O7: idle, NOP has no effect to make; while BUSY it is a dropped CMD write. -/
theorem nopChangesNothing : Obligations.NopChangesNothing :=
  ⟨fun s hidle => exec_idle .nop s hidle, fun _ _ hi hbusy => step_cmdWrite_busy hbusy hi⟩

/-- Settles O8: each command's issue is `accept`, which keeps the grid's flag and sizes for WRITE only. -/
theorem acceptanceEffects : Obligations.AcceptanceEffects := fun s hidle =>
  ⟨exec_idle .decode s hidle, exec_idle .write s hidle, exec_idle .extract s hidle⟩

/-- A word above the four of R81's table is illegal (30_encoding.md R83). -/
theorem exists_decodeCmd_eq_error (h : 4 ≤ w.toNat) : ∃ r, decodeCmd w = .error r := by
  by_cases hrsv : w.toNat / 16 = 0
  · exact ⟨_, decodeCmd_of_op_unused hrsv (by omega)⟩
  · exact ⟨_, decodeCmd_of_rsv_ne_zero hrsv⟩

/-- Settles O10: the decoder rejects the word, and the block records code 6 with PEND untouched. -/
theorem illegalWordCompletesAtOnce : Obligations.IllegalWordCompletesAtOnce := by
  intro s w rest hi hidle hw
  obtain ⟨r, hr⟩ := exists_decodeCmd_eq_error hw
  rw [step_cmdWrite_idle hidle hi, issueCommand, hr]
  rfl

/-! ### The engine's turn (R175) -/

/-- The engine's turn, by its own input or after the last one. -/
theorem step_engine (hi : s.inputs = .engine :: rest ∨ s.inputs = [] ∧ rest = []) :
    step s = engineStep { s with inputs := rest } := by
  rcases hi with hi | ⟨hi, rfl⟩
  · rw [step, hi]; rfl
  · have hs : { s with inputs := [] } = s := by rw [← hi]
    simp only [hs, step, hi]

/-- The engine runs the pending command. -/
theorem engineStep_pending {op : Op} (hp : s.pend = some ⟨op, len⟩) : engineStep s = exec op.instr s := by
  rw [engineStep, hp]

/-- Settles O5: taking the input off leaves the command pending. -/
theorem engineStepRunsPendingCommand : Obligations.EngineStepRunsPendingCommand := by
  intro s len rest hi
  rw [step_engine hi]
  exact ⟨fun hp => engineStep_pending (op := .decode) hp, fun hp => engineStep_pending (op := .write) hp,
    fun hp => engineStep_pending (op := .extract) hp⟩

/-! ### What EXTRACT leaves in FB and OUT (R174) -/

/-- A pending EXTRACT of the one accepted length, with room in OUT, completes. -/
theorem exec_extract_complete (hp : s.pend = some ⟨.extract, 8192⟩) (hroom : 65590 ≤ s.outCap.val) :
    exec .extract s = .next { s with
      fb := (storeGrid 16 s).fb, out := (storeFile (storeGrid 16 s)).out, width := 128, height := 128,
      gridValid := true, outLen := 65590, outValid := true, done := true, pend := none } := by
  have hsize : (storeFile (storeGrid 16 s)).outLen = 65590 := by rw [storeFile_outLen, fileSize_storeGrid]; rfl
  rw [exec_extract_pending hp, if_neg (by decide), if_neg (by decide), if_neg (Nat.not_lt.2 hroom), ← hsize]
  rfl

/-- The pixel word at OUT[54 + 4n] of a file is FB's word `n` (41_write.md R145). -/
theorem HoldsFile_readWord {out fb : Ram} (h : HoldsFile out fb) {n : Nat} (hn : n < 16384) :
    out.readWord (54 + 4 * n) = fbWord fb n := by
  obtain ⟨-, hpixel⟩ := h
  refine readWord_of_bytes fun m hm => ?_
  rw [byteOf_fbWord_of_lt fb n hm, Nat.add_assoc, hpixel _ (by omega)]

/-- EXTRACT leaves in OUT the file of the grid it leaves in FB. -/
theorem holdsFile_storeFile_storeGrid (s : State) :
    HoldsFile (storeFile (storeGrid 16 s)).out (storeGrid 16 s).fb :=
  have ⟨hw, hh⟩ := storeGrid_width_16 s
  holdsFile_storeFile _ hw hh

/-- FB from its size up is no cell of the grid. -/
theorem storeGrid_fb_read_above (s : State) {a : Nat} (ha : 65536 ≤ a) : (storeGrid 16 s).fb.read a = s.fb.read a := by
  rw [storeGrid_fb_read, if_neg (Nat.not_lt.2 ha)]

/-- OUT from the file size up keeps its bytes in an EXTRACT (R151). -/
theorem storeFile_storeGrid_out_read_above (s : State) {o : Nat} (ho : 65590 ≤ o) :
    (storeFile (storeGrid 16 s)).out.read o = s.out.read o :=
  storeFile_out_read_above (storeGrid 16 s) (by rw [fileSize_storeGrid]; exact ho)

/-- Settles O29: the witnesses are the RAMs that the stores of the two phases leave. -/
theorem extractCompletes : Obligations.ExtractCompletes := by
  intro s hp hroom
  have hgrid := storeGrid_fbWord s
  obtain ⟨hheader, -⟩ := holdsFile_storeFile_storeGrid s
  exact ⟨(storeGrid 16 s).fb, (storeFile (storeGrid 16 s)).out, exec_extract_complete hp hroom, hgrid,
    fun _ ha => storeGrid_fb_read_above s ha, hheader,
    fun n hn => (HoldsFile_readWord (holdsFile_storeFile_storeGrid s) hn).trans (hgrid n hn),
    fun _ ho => storeFile_storeGrid_out_read_above s ho⟩

/-- Settles O33: the two steps are the issue and the completion, and acceptance keeps TILE, OUT_CAP and HAZ. -/
theorem extractEndToEnd : Obligations.ExtractEndToEnd := by
  intro s hidle hlen hroom hi
  have hissue : step s = .next (accept .extract { s with inputs := [] }) :=
    (step_cmdWrite_encode (i := .extract) hidle hi).trans (exec_idle .extract { s with inputs := [] } hidle)
  have hp : (accept .extract { s with inputs := [] }).pend = some ⟨.extract, 8192⟩ := by rw [accept_pend, hlen]
  obtain ⟨fb, out, hexec, hgrid, -, hheader, hpixel, -⟩ := extractCompletes _ hp hroom
  obtain ⟨-, -, hengine⟩ :=
    engineStepRunsPendingCommand (accept .extract { s with inputs := [] }) 8192 [] (.inr ⟨rfl, rfl⟩)
  refine ⟨_, (core_run_of_step 1 hissue).trans (core_run_of_step 0 ((hengine hp).trans hexec)), ?_⟩
  exact ⟨rfl, rfl, rfl, rfl, rfl, rfl, rfl, rfl, rfl, rfl, rfl, hgrid, hheader, hpixel⟩

/-! ### The errors of EXTRACT, and its two phases (R174, 60_exceptions.md R193) -/

/-- Settles O30: the length is checked before the room in OUT, and the grid is stored between. -/
theorem extractErrors : Obligations.ExtractErrors := by
  intro s len hp
  have hends := exec_extract_pending hp
  refine ⟨fun hmis => ?_, fun hbanks hcount => ?_, fun hlen hroom => ⟨(storeGrid 16 s).fb, ?_, storeGrid_fbWord s⟩⟩
  · rw [hends, if_pos hmis]; rfl
  · rw [hends, if_neg (not_not_intro hbanks), if_pos hcount]; rfl
  · rw [hends, if_neg (by omega), if_neg (by omega), if_pos hroom]; rfl

/-- A pending EXTRACT of the one accepted length ends as a WRITE pending on the grid it has stored. -/
theorem exec_extract_eq_write (hp : s.pend = some ⟨.extract, 8192⟩) (len : Word) :
    exec .extract s = exec .write (storeGrid 16 { s with pend := some ⟨.write, len⟩ }) := by
  rw [exec_write_pending (len := len) rfl, writePhase_storeGrid, exec_extract_pending hp, if_neg (by decide),
    if_neg (by decide), apply_ite finish]
  rfl

/-- Settles O31: DONE and PEND put back, a successful DECODE leaves the state WRITE starts from; a failed one ends with
EXTRACT's own error. -/
theorem extractIsDecodeThenWrite : Obligations.ExtractIsDecodeThenWrite := by
  intro s len hp
  by_cases hlen : len.toNat = 8192
  · obtain rfl : len = 8192 := BitVec.eq_of_toNat_eq hlen
    exact ⟨_, exec_decode_complete _ rfl, fun _ => exec_extract_eq_write hp 8192, fun hne => absurd hlen hne⟩
  · rw [exec_decode_pending rfl, exec_extract_pending hp]
    split <;> exact ⟨_, rfl, fun h => absurd h hlen, fun _ => rfl⟩

/-! ### The frame of EXTRACT -/

/-- Everything a command of the engine can do: its issue (R172), the engine's step when it is pending (R175), and its
drop while another is (R171). -/
inductive OpChange (op : Op) (s : State) : State → Prop where
  | accepted : s.pend = none → OpChange op s (accept op s)
  | ended (len : Word) (t : State) : s.pend = some ⟨op, len⟩ → EngineChange s t → OpChange op s t
  | dropped (p : Pending) : s.pend = some p → p.op ≠ op → OpChange op s (flagHazard s)

/-- A command's meaning is `runCommand` of some body. -/
theorem exists_exec_eq_runCommand (op : Op) : ∃ body, ∀ s, exec op.instr s = runCommand op body s := by
  cases op
  exacts [⟨decodePhase, fun _ => rfl⟩, ⟨fun _ => writePhase, fun _ => rfl⟩, ⟨extractPhase, fun _ => rfl⟩]

theorem opChange_of_exec {op : Op} (h : exec op.instr s = .next t) : OpChange op s t := by
  obtain ⟨body, hbody⟩ := exists_exec_eq_runCommand op
  cases hp : s.pend with
  | none =>
    rw [hbody, runCommand_idle _ _ _ hp] at h
    cases h
    exact .accepted hp
  | some p =>
    by_cases hop : p.op = op
    · subst hop
      exact .ended p.len t hp (engineChange_of_engineStep ((engineStep_pending hp).trans h))
    · rw [hbody, runCommand_other _ _ _ _ hp hop] at h
      cases h
      exact .dropped p hp hop

/-- Settles O32: the grid is stored only with the length 8192, the file only when it fits, and only a drop sets HAZ. -/
theorem extractFrame : Obligations.ExtractFrame := by
  intro s t h
  cases opChange_of_exec (op := .extract) h with
  | accepted =>
    exact ⟨rfl, rfl, rfl, rfl, rfl, fun _ => rfl, fun _ _ => rfl, fun _ _ => rfl, fun _ _ => rfl, fun _ _ => rfl,
      fun _ => rfl⟩
  | dropped p hp hop =>
    exact ⟨rfl, rfl, rfl, rfl, rfl, fun _ => rfl, fun _ _ => rfl, fun _ _ => rfl, fun _ _ => rfl, fun _ _ => rfl,
      fun hown => absurd (hown p hp) hop⟩
  | ended len _ hp hc =>
    cases hc with
    | extracted h8192 hroom =>
      exact ⟨rfl, rfl, rfl, rfl, rfl, fun _ => rfl, fun hne => absurd h8192 hne,
        fun _ ha => storeGrid_fb_read_above s ha, fun hkept => absurd hkept (by simp [h8192, hroom]),
        fun _ ha => storeFile_storeGrid_out_read_above s ha, fun _ => rfl⟩
    | extractFailed h8192 hroom =>
      exact ⟨rfl, rfl, rfl, rfl, rfl, fun _ => rfl, fun hne => absurd h8192 hne,
        fun _ ha => storeGrid_fb_read_above s ha, fun _ _ => rfl, fun _ _ => rfl, fun _ => rfl⟩
    | failed =>
      exact ⟨rfl, rfl, rfl, rfl, rfl, fun _ => rfl, fun _ _ => rfl, fun _ _ => rfl, fun _ _ => rfl, fun _ _ => rfl,
        fun _ => rfl⟩
    | idle hp' | decoded hp' | written _ hp' => cases hp.symm.trans hp'

end Sys2Proof.Proofs
end

section
/-! The exceptions chapter (60_exceptions.md): no step from the invariant stops (R190), what clears HAZ (R200), and the
idle block (R208). -/

namespace Sys2Proof.Proofs
open Sys2Proof.Machine Sys2Proof.Laws

variable {s t : State} {a v : Word} {n : Size} {tgt : Target} {rest : List Input}

/-! ### The engine's turn has a next state (R190) -/

/-- With nothing pending the engine has no step. -/
theorem engineStep_idle (hidle : s.pend = none) : engineStep s = .next s := by
  rw [engineStep, hidle]

/-- A pending DECODE ends, whatever length was latched. -/
theorem exists_exec_decode_pending {len : Word} (hp : s.pend = some ⟨.decode, len⟩) :
    ∃ t, exec .decode s = .next t := by
  rw [exec_decode_pending hp]
  split_ifs <;> exact ⟨_, rfl⟩

/-- A pending EXTRACT ends: its write phase has the grid of its own decode phase. -/
theorem exists_exec_extract_pending {len : Word} (hp : s.pend = some ⟨.extract, len⟩) :
    ∃ t, exec .extract s = .next t := by
  rw [exec_extract_pending hp]
  split_ifs <;> exact ⟨_, rfl⟩

/-- A pending WRITE ends: the invariant makes a valid grid 128 x 128, which FB holds, so the fault of log 10 is out of
reach (41_write.md R150). -/
theorem exists_exec_write_pending {len : Word} (h : s.Inv) (hp : s.pend = some ⟨.write, len⟩) :
    ∃ t, exec .write s = .next t := by
  obtain ⟨noGrid, noRoom⟩ := writeErrors s len hp
  cases hg : s.gridValid with
  | false => exact ⟨_, noGrid hg⟩
  | true =>
    obtain ⟨hw, hh⟩ := inv_size_of_gridValid h hg
    by_cases hroom : 65590 ≤ s.outCap.val
    · exact ⟨_, exec_write_complete_128 hp hg hw hh hroom⟩
    · have hsmall : s.outCap.val < s.fileSize := by rw [fileSize_of_128 s hw hh]; exact Nat.lt_of_not_le hroom
      exact ⟨_, noRoom hg hsmall⟩

theorem exists_engineStep (h : s.Inv) : ∃ t, engineStep s = .next t := by
  cases hp : s.pend with
  | none => exact ⟨s, engineStep_idle hp⟩
  | some p =>
    obtain ⟨op, len⟩ := p
    rw [engineStep_pending hp]
    cases op with
    | decode => exact exists_exec_decode_pending hp
    | write => exact exists_exec_write_pending h hp
    | extract => exact exists_exec_extract_pending hp

/-! ### A host write has a next state, in every state of the block (R190) -/

/-- A word issued to an idle block is accepted, is NOP, or is recorded as illegal (42_sequencer.md R170, R176). -/
theorem exists_issueCommand (hidle : s.pend = none) (w : Word) : ∃ t, issueCommand w s = .next t := by
  rw [issueCommand]
  cases decodeCmd w with
  | ok i => exact ⟨_, exec_idle i s hidle⟩
  | error => exact ⟨_, rfl⟩

/-- Of the targets only CMD runs a command, and CMD is locked while BUSY. -/
theorem exists_performWrite (hfree : tgt.lockedWhileBusy = true → s.pend = none) (v : Word) :
    ∃ t, performWrite tgt v s = .next t := by
  cases tgt with
  | reg r =>
    cases r with
    | cmd => exact exists_issueCommand (hfree rfl) v
    | _ => exact ⟨_, rfl⟩
  | ram m => cases m <;> exact ⟨_, rfl⟩

/-- A write violates, or is dropped, or has its target's own effect: the order of R194. -/
theorem exists_step_write (hi : s.inputs = .host (.write a n v) :: rest) : ∃ t, step s = .next t := by
  by_cases hperm : WritePermitted a.toNat n
  · obtain ⟨tgt, hr, hw⟩ := (writable_iff a n).2 hperm
    by_cases hdrop : tgt.lockedWhileBusy = true ∧ s.pend ≠ none
    · obtain ⟨hlock, hbusy⟩ := hdrop
      exact ⟨_, step_write_dropped hi hr hbusy hlock⟩
    · have hfree : tgt.lockedWhileBusy = true → s.pend = none := fun hlock =>
        by_contra fun hbusy => hdrop ⟨hlock, hbusy⟩
      rw [step_write_performed hi hr hw hfree]
      exact exists_performWrite (s := { s with inputs := rest }) hfree v
  · exact ⟨_, step_write_violation hi hperm⟩

/-- Settles O48: a read and a reset always have a next state, a host write too, and the engine has one from the
invariant. -/
theorem invStatesNeverStop : Obligations.InvStatesNeverStop := by
  intro s h
  cases hi : s.inputs with
  | nil =>
    rw [step_engine (.inr ⟨hi, rfl⟩)]
    exact exists_engineStep (inv_inputs h [])
  | cons e rest =>
    cases e with
    | host tr =>
      cases tr with
      | read a n => exact ⟨_, step_read s a n rest hi⟩
      | write a n v => exact exists_step_write hi
    | engine =>
      rw [step_engine (.inl hi)]
      exact exists_engineStep (inv_inputs h rest)
    | reset => exact ⟨resetStep { s with inputs := rest }, by rw [step, hi]; rfl⟩

/-! ### HAZ (R200) -/

/-- No completion touches HAZ: it records accesses of the host's, not errors of a command. -/
theorem engineChange_haz (hc : EngineChange s t) : t.haz = s.haz := by
  cases hc <;> rfl

/-- Settles O50: every step keeps HAZ or sets it, but for the two that the statement excepts. -/
theorem hazIsSticky : Obligations.HazIsSticky := by
  intro s t hstep hhaz hack hreset
  cases stepChange_of_step hstep with
  | engine _ _ _ hc => exact (engineChange_haz hc).trans hhaz
  | reset rest hi => exact absurd hi (hreset rest)
  | acknowledged rest v hi =>
    have hbit : v.getLsbD 10 = false := hack v rest hi
    rw [acknowledge_haz, hbit]
    exact hhaz
  | violatingRead | hazard => rfl
  | read | draw | same | illegal | accepted | lengthSet | tileStored => exact hhaz

/-! ### The idle block (R208) -/

/-- Settles O43: both are the engine's turn, which with nothing pending only takes its input off. -/
theorem idleKeepsState : Obligations.IdleKeepsState := by
  intro s hidle
  have turn {rest : List Input} (hi : s.inputs = .engine :: rest ∨ s.inputs = [] ∧ rest = []) :
      step s = .next { s with inputs := rest } :=
    (step_engine hi).trans (engineStep_idle hidle)
  exact ⟨fun hi => by rw [turn (.inr ⟨hi, rfl⟩), ← hi], fun _ hi => turn (.inl hi)⟩

end Sys2Proof.Proofs
end

section
/-! The reset chapter (70_reset_and_hazards.md): the registers after a reset (R221), the RAMs it keeps and redraws (R222,
R223), and the invariant after power-on. -/

namespace Sys2Proof.Proofs
open Sys2Proof.Machine Sys2Proof.Laws

variable {s : State} {p : Pending} {rest : List Input}

/-! ### The registers (R221) -/

theorem step_reset (hi : s.inputs = .reset :: rest) : step s = .next (resetStep { s with inputs := rest }) := by
  rw [step, hi]; rfl

/-- Settles O44: power-on and `resetStep` write the same constants, whatever the state. -/
theorem resetRegisterValues : Obligations.ResetRegisterValues := by
  refine ⟨⟨rfl, rfl, rfl, rfl, rfl, rfl, rfl, rfl, rfl, rfl, rfl⟩, fun s rest hi => ?_⟩
  exact ⟨_, step_reset hi, rfl, rfl, rfl, rfl, rfl, rfl, rfl, rfl, rfl, rfl, rfl, rfl⟩

/-! ### The RAMs (R222, R223) -/

/-- A command writes FB unless it is WRITE, so a reset that interrupts any other redraws FB. -/
theorem resetStep_fb_redrawn (hp : s.pend = some p) (hop : p.op ≠ .write) :
    (resetStep s).fb = Ram.unspecified s.draws := by
  have hint : s.fbInterrupted = true := by rw [State.fbInterrupted, hp]; exact (writesFb_iff p.op).2 hop
  rw [resetStep_fb, if_pos hint]

/-- A command writes OUT unless it is DECODE, so a reset that interrupts any other redraws OUT. -/
theorem resetStep_out_redrawn (hp : s.pend = some p) (hop : p.op ≠ .decode) :
    (resetStep s).out = Ram.unspecified (s.draws + 1) := by
  have hint : s.outInterrupted = true := by rw [State.outInterrupted, hp]; exact (writesOut_iff p.op).2 hop
  rw [resetStep_out, if_pos hint]

/-- Every draw number from `s.draws` on is still to be given out, so no RAM has it. -/
theorem drawNo_ne_of_draws_le (h : s.Inv) {n : Nat} (hn : s.draws ≤ n) :
    n ≠ s.tile.drawNo ∧ n ≠ s.fb.drawNo ∧ n ≠ s.out.drawNo := by
  obtain ⟨htile, hfb, hout⟩ := h.draws_given
  omega

/-- Settles O45: a RAM the pending command does not write is kept, and one it writes takes the next draw (FB) or the one
after it (OUT), both new by the invariant. -/
theorem resetKeepsOrRedrawsRam : Obligations.ResetKeepsOrRedrawsRam := by
  intro s rest hi h
  refine ⟨_, step_reset hi, rfl, fun hwrite => ?_, fun hdecode => ?_, fun p hp hop => ?_, fun p hp hop => ?_⟩
  · exact resetStep_fb_kept fun p hp => by rw [hwrite p hp]; rfl
  · exact resetStep_out_kept fun p hp => by rw [hdecode p hp]; rfl
  · rw [resetStep_fb_redrawn (s := { s with inputs := rest }) hp hop]
    exact ⟨rfl, drawNo_ne_of_draws_le h (Nat.le_refl _)⟩
  · rw [resetStep_out_redrawn (s := { s with inputs := rest }) hp hop]
    exact ⟨rfl, drawNo_ne_of_draws_le h (Nat.le_succ _)⟩

/-! ### The invariant after power-on -/

/-- Settles O46: nothing is pending and nothing is valid, the RAMs are empty of stored bytes, and their draws 0, 1 and 2
are the three given out. -/
theorem invHoldsAtReset : Obligations.InvHoldsAtReset where
  err_iff := by decide
  not_done_err := by decide
  errcode_range := by decide
  busy_clear := fun hbusy => absurd rfl hbusy
  latched := fun _ hp => nomatch hp
  busy_invalid := fun _ hp => nomatch hp
  width_eq := rfl
  height_eq := rfl
  outLen_eq := rfl
  outValid_grid := fun hvalid => nomatch hvalid
  grid := fun hvalid => nomatch hvalid
  file := fun hvalid => nomatch hvalid
  tile_wf := Ram_wf_unspecified 8192 0
  fb_wf := Ram_wf_unspecified 65536 1
  out_wf := Ram_wf_unspecified State.reset.outCap.val 2
  draws_given := by decide
  draws_apart := by decide

end Sys2Proof.Proofs
end

section
/-! The run to its end: what a placed word does next, where a WRITE of a grid larger than FB stops, and the bounded
completion of 70_reset_and_hazards.md R232. -/

namespace Sys2Proof.Proofs
open Sys2Proof.Machine Sys2Proof.Laws

variable {s t : State}

/-! ### A placed word (log 13) -/

/-- A placed 32-bit word is the next input as it is: nothing of it is cut off. -/
theorem withFetchWord_word (s : State) (w : Word) :
    s.withFetchWord 32 w.toNat = { s with inputs := cmdWrite w :: s.inputs } := by
  rw [State.withFetchWord, Nat.mod_eq_of_lt w.isLt, BitVec.ofNat_toNat, BitVec.setWidth_eq]

/-- Settles O6: the placed word is a CMD write of the command's own word. -/
theorem placedWordRunsNext : Obligations.PlacedWordRunsNext := by
  intro s i hidle
  rw [withFetchWord_word]
  exact step_cmdWrite_encode (rest := s.inputs) hidle rfl

/-! ### A WRITE of a grid larger than FB (log 10) -/

/-- Settles O26: the fault is the write phase's last check, after NoGrid and IoFailure. -/
theorem writeBeyondFbStops : Obligations.WriteBeyondFbStops := by
  intro s len hp hg hroom hlarge
  rw [exec_write_pending hp, writePhase_fault s hg hroom hlarge, finish]

/-! ### Every step takes one input (20_memory.md R65) -/

/-- The engine's turn leaves nothing pending (42_sequencer.md R175). -/
theorem engineChange_pend (hc : EngineChange s t) : t.pend = none := by
  cases hc with
  | idle hidle => exact hidle
  | decoded | written | extracted | failed | extractFailed => rfl

/-- No command touches the inputs to come. -/
theorem engineChange_inputs (hc : EngineChange s t) : t.inputs = s.inputs := by
  cases hc <;> rfl

/-- A step takes off the first input, if there is one, and no other. -/
theorem stepChange_inputs (hc : StepChange s t) : t.inputs = s.inputs.tail := by
  cases hc with
  | engine rest _ hi hc =>
    rw [engineChange_inputs hc]
    rcases hi with hi | ⟨hi, rfl⟩ <;> rw [hi] <;> rfl
  | reset _ hi | read _ _ _ _ hi | draw _ _ _ _ hi | violatingRead _ _ _ hi | hazard _ _ _ _ hi | same _ _ _ _ hi
  | illegal _ _ hi | accepted _ _ _ hi | acknowledged _ _ hi | lengthSet _ _ hi | tileStored _ _ _ _ _ _ hi =>
    rw [hi]; rfl

/-- From the invariant a step goes on, keeps it, and takes one input. -/
theorem exists_step_inv (h : s.Inv) : ∃ t, step s = .next t ∧ t.Inv ∧ t.inputs = s.inputs.tail := by
  obtain ⟨t, hstep⟩ := invStatesNeverStop s h
  exact ⟨t, hstep, stepKeepsInv s t h hstep, stepChange_inputs (stepChange_of_step hstep)⟩

/-! ### The bounded completion (70_reset_and_hazards.md R232) -/

/-- With the inputs used up, a step is the engine's turn, so it leaves nothing pending. -/
theorem pend_of_step_nil (hi : s.inputs = []) (hstep : step s = .next t) : t.pend = none := by
  rw [step_engine (.inr ⟨hi, rfl⟩)] at hstep
  exact engineChange_pend (engineChange_of_engineStep hstep)

/-- Settles O49, by induction on the inputs to come: each step takes one off, and the step after the last one is the
engine's turn. -/
theorem pendingCommandCompletes : Obligations.PendingCommandCompletes := by
  intro s h
  induction hi : s.inputs generalizing s with
  | nil =>
    obtain ⟨t, hstep, ht, hinputs⟩ := exists_step_inv h
    exact ⟨t, core_run_of_step 0 hstep, by rw [hinputs, hi, List.tail_nil], pend_of_step_nil hi hstep, ht⟩
  | cons e rest ih =>
    obtain ⟨u, hstep, hu, hinputs⟩ := exists_step_inv h
    rw [hi, List.tail_cons] at hinputs
    obtain ⟨t, hrun, hend⟩ := ih u hu hinputs
    exact ⟨t, (core_run_of_step _ hstep).trans hrun, hend⟩

end Sys2Proof.Proofs
end
